-- ==== Sys2Proof/Word.lean ====
section
/-! DEFINITION. The word type and its plainest arithmetic: 00_scope.md rules R8 (every value is a 32-bit bit vector) and
R10 (unsigned readings are of exactly 32 bits). XLEN = 32 and NREGS = 32 are fixed here as types (notes/assumptions/27.md). -/

namespace Sys2Proof

/-- A register value, memory word, address, extended immediate or program-counter value (R8). -/
abbrev Word := BitVec 32

/-- One byte lane of a memory word (R40). -/
abbrev Byte := BitVec 8

/-- The index of one of the 32 general registers x0 to x31 (R20). -/
abbrev RegIx := Fin 32

/-- `sint(v)`: the integer v denotes in two's complement (00_scope.md, Notation). -/
abbrev sint (v : Word) : Int := v.toInt

/-- `uint(v)`: the integer v denotes unsigned (00_scope.md, Notation). -/
abbrev uint (v : Word) : Nat := v.toNat

end Sys2Proof
end

