-- ==== Sys2Proof/Config.lean ====
section
/-! DEFINITION. What an implementation fixes: the parameters of 00_scope.md rule R6, each with the named alternatives the rule
gives it, and the two open values, which are constants without a body. The machine's own parameter values are `params`
(Sys2Proof/Machine/Params.lean). -/

namespace Sys2Proof

/-- An output event of a print system call (R196): what the host receives. `outMemWord` carries the word index and the word. -/
inductive OutEvent where
  | outInt (v : Word)
  | outMemWord (i : Nat) (v : Word)
  deriving DecidableEq, Repr

/-- `STOP_COMPARE`: how "reaches the boundary" is tested (R216). -/
inductive StopCompare where
  | ge
  | eq
  deriving DecidableEq, Repr

/-- `BIMM_BIT11_SOURCE`: the word bit copied to bit 11 of the branch immediate (R66). -/
inductive BranchBit11Source where
  | bit7
  | bit31
  deriving DecidableEq, Repr

/-- `SB_LANE_SOURCE`: what selects the byte lane of a byte store (R47). -/
inductive StoreByteLane where
  | resolved
  | offset
  deriving DecidableEq, Repr

/-- `JALR_ORDER`: whether jalr reads rs1 before or after it writes the link (R186). -/
inductive JalrOrder where
  | readFirst
  | linkFirst
  deriving DecidableEq, Repr

/-- `SHIFT_REG_POLICY`: the shift amount of a register shift (R106). -/
inductive ShiftRegPolicy where
  | mask5
  | faultGe32
  deriving DecidableEq, Repr

/-- `INIT_FILL`: what a byte no image covers holds at launch (R36, R256): 0, or any value. -/
inductive InitFill where
  | zero
  | any
  deriving DecidableEq, Repr

/-- The configuration of a model (R6). `XLEN` and `NREGS` are the types `Word` and `RegIx`, `MEM_BYTES` is `Config.memBytes`, and
`RENDER` is `Config.render`. -/
structure Config where
  memWords         : Nat
  pcInit           : Word
  codeBase         : Word
  dataBoundary     : Word
  spInit           : Word
  gpInit           : Word
  spReg            : RegIx
  gpReg            : RegIx
  syscallNumReg    : RegIx
  syscallArgReg    : RegIx
  sysPrintInt      : Word
  sysPrintMemWord  : Word
  sysExit          : Word
  stopCompare      : StopCompare
  branchBit11      : BranchBit11Source
  storeByteLane    : StoreByteLane
  jalrOrder        : JalrOrder
  jalrClearBit0    : Bool
  shiftRegPolicy   : ShiftRegPolicy
  strictFunct7     : Bool
  initFill         : InitFill
  deriving DecidableEq, Repr

/-- `MEM_BYTES` = 4 × `MEM_WORDS` (R6). -/
abbrev Config.memBytes (c : Config) : Nat := 4 * c.memWords

/-- The byte at an address no image covers, under `INIT_FILL = any`: a draw, of which nothing is known (R6, R256). -/
opaque Config.freeFill : Nat → Byte

/-- `RENDER`: the text the host shows for an output event. OPEN in the spec (R200, D6): nothing is known of it. -/
opaque Config.render : OutEvent → String

end Sys2Proof
end

