-- ==== Sys2Proof/Machine/Params.lean ====
section
/-! DEFINITION. The machine's own parameter values: every row of 00_scope.md rule R6 at the value the document states or, for a
row marked decision, at the first-named value (R7). -/

namespace Sys2Proof

/-- The values of R6. UNVERIFIED where R6 marks the row as the spec's decision (notes/assumptions/2.md to 5, 7, 10 to 12, 15): the
spec chose them and its source document does not state them. -/
def params : Config where
  memWords        := 4096
  pcInit          := 0x00000000#32
  codeBase        := 0x00000000#32
  dataBoundary    := 0x00002000#32
  spInit          := 0x00003FFC#32
  gpInit          := 0x00001800#32
  spReg           := 2
  gpReg           := 3
  syscallNumReg   := 17
  syscallArgReg   := 10
  sysPrintInt     := 1#32
  sysPrintMemWord := 4#32
  sysExit         := 10#32
  stopCompare     := .ge
  branchBit11     := .bit7
  storeByteLane   := .resolved
  jalrOrder       := .readFirst
  jalrClearBit0   := false
  shiftRegPolicy  := .mask5
  strictFunct7    := false
  initFill        := .zero

end Sys2Proof
end

