-- ==== Sys2Proof/Syntax.lean ====
section
/-! DEFINITION. The instructions as syntax: the formats (30_encoding.md R72), the instruction identities (R80, R82, R84), the decoded
fields (R61, R63 to R68; 10_state.md R34), and `Instr`, one constructor per row of spec/opcode_table.json. -/

namespace Sys2Proof

/-- The eight InstructionFormats (R72). -/
inductive InstructionFormat where
  | register
  | immediate
  | store
  | branch
  | upperImmediate
  | jump
  | noOp
  | undefined
  deriving DecidableEq, Repr

/-- The InstructionIds (R80): the 35 instructions, the no-op of the all-zero opcode (R82), and the Undefined outcome (R84). -/
inductive InstructionId where
  | sub | sra | add | srl | sll | slt | sltu | xor | or | and
  | srai | srli | slli | addi | slti | sltiu | xori | ori | andi
  | lb | lw | lbu | sb | sw
  | beq | bne | blt | bge | bltu | bgeu
  | lui | auipc | jal | jalr
  | ecall | nop | undefined
  deriving DecidableEq, Repr

/-- The DecodedFields (R34): every field of R61 and the five immediates of R63 to R68, whatever the instruction. -/
structure DecodedFields where
  opcode : BitVec 7
  rd     : RegIx
  funct3 : BitVec 3
  rs1    : RegIx
  rs2    : RegIx
  funct7 : BitVec 7
  shamt  : BitVec 5
  immI   : Word
  immS   : Word
  immB   : Word
  immU   : Word
  immJ   : Word
  deriving DecidableEq, Repr

/-- One constructor per row of spec/opcode_table.json. Immediates are held as the decoder gives them, extended to 32 bits (R8):
`immI`, `immS`, `immB` and `immJ` sign-extended, `immU` a 20-bit value zero-extended; `shamt` is the 5-bit field (R70).
`undefined` holds the unrecognised word itself, which its report records (R191; notes/assumptions/22.md). -/
inductive Instr where
  -- register-register (R101 to R111)
  | add  (rd rs1 rs2 : RegIx)
  | sub  (rd rs1 rs2 : RegIx)
  | and  (rd rs1 rs2 : RegIx)
  | or   (rd rs1 rs2 : RegIx)
  | xor  (rd rs1 rs2 : RegIx)
  | sll  (rd rs1 rs2 : RegIx)
  | srl  (rd rs1 rs2 : RegIx)
  | sra  (rd rs1 rs2 : RegIx)
  | slt  (rd rs1 rs2 : RegIx)
  | sltu (rd rs1 rs2 : RegIx)
  -- register-immediate (R121 to R129)
  | addi  (rd rs1 : RegIx) (immI : Word)
  | andi  (rd rs1 : RegIx) (immI : Word)
  | ori   (rd rs1 : RegIx) (immI : Word)
  | xori  (rd rs1 : RegIx) (immI : Word)
  | slli  (rd rs1 : RegIx) (shamt : BitVec 5)
  | srli  (rd rs1 : RegIx) (shamt : BitVec 5)
  | srai  (rd rs1 : RegIx) (shamt : BitVec 5)
  | slti  (rd rs1 : RegIx) (immI : Word)
  | sltiu (rd rs1 : RegIx) (immI : Word)
  -- upper immediate (R140, R141)
  | lui   (rd : RegIx) (immU : Word)
  | auipc (rd : RegIx) (immU : Word)
  -- loads and stores (R151 to R155)
  | lw  (rd rs1 : RegIx) (immI : Word)
  | lb  (rd rs1 : RegIx) (immI : Word)
  | lbu (rd rs1 : RegIx) (immI : Word)
  | sw  (rs1 rs2 : RegIx) (immS : Word)
  | sb  (rs1 rs2 : RegIx) (immS : Word)
  -- branches and jumps (R171 to R182)
  | beq  (rs1 rs2 : RegIx) (immB : Word)
  | bne  (rs1 rs2 : RegIx) (immB : Word)
  | bge  (rs1 rs2 : RegIx) (immB : Word)
  | bgeu (rs1 rs2 : RegIx) (immB : Word)
  | blt  (rs1 rs2 : RegIx) (immB : Word)
  | bltu (rs1 rs2 : RegIx) (immB : Word)
  | jal  (rd : RegIx) (immJ : Word)
  | jalr (rd rs1 : RegIx) (immI : Word)
  -- no-op, undefined, system (R190 to R192)
  | nop
  | undefined (word : Word)
  | ecall
  deriving DecidableEq, Repr

/-- The InstructionId of an instruction (R80). -/
def Instr.id : Instr → InstructionId
  | .add .. => .add
  | .sub .. => .sub
  | .and .. => .and
  | .or .. => .or
  | .xor .. => .xor
  | .sll .. => .sll
  | .srl .. => .srl
  | .sra .. => .sra
  | .slt .. => .slt
  | .sltu .. => .sltu
  | .addi .. => .addi
  | .andi .. => .andi
  | .ori .. => .ori
  | .xori .. => .xori
  | .slli .. => .slli
  | .srli .. => .srli
  | .srai .. => .srai
  | .slti .. => .slti
  | .sltiu .. => .sltiu
  | .lui .. => .lui
  | .auipc .. => .auipc
  | .lw .. => .lw
  | .lb .. => .lb
  | .lbu .. => .lbu
  | .sw .. => .sw
  | .sb .. => .sb
  | .beq .. => .beq
  | .bne .. => .bne
  | .bge .. => .bge
  | .bgeu .. => .bgeu
  | .blt .. => .blt
  | .bltu .. => .bltu
  | .jal .. => .jal
  | .jalr .. => .jalr
  | .nop => .nop
  | .undefined .. => .undefined
  | .ecall => .ecall

end Sys2Proof
end

