-- ==== Sys2Proof/Machine/Encoding.lean ====
section
/-! DEFINITION. The bit fields, the five immediates, the numeric opcodes, which words are unrecognised, and which operand values an
encoding can hold: 30_encoding.md R61 to R84. The decoder and the encoder (Sys2Proof/Decode.lean) and the well-formedness check
(Sys2Proof/WellFormed.lean) are written over these. -/

namespace Sys2Proof

/-- Bits lo+n−1 : lo of a word (00_scope.md, Notation). -/
def bitField (w : Word) (lo n : Nat) : BitVec n := w.extractLsb' lo n

/-- A 5-bit register field as a register index (R70). -/
def regField (f : BitVec 5) : RegIx := f.toFin

/-! ## Fields (R61). PRESUMED: the positions are RV32I's (notes/assumptions/1.md). -/

def opcodeOf (w : Word) : BitVec 7 := bitField w 0 7
def rdOf (w : Word) : RegIx := regField (bitField w 7 5)
def funct3Of (w : Word) : BitVec 3 := bitField w 12 3
def rs1Of (w : Word) : RegIx := regField (bitField w 15 5)
def rs2Of (w : Word) : RegIx := regField (bitField w 20 5)
def shamtOf (w : Word) : BitVec 5 := bitField w 20 5
def funct7Of (w : Word) : BitVec 7 := bitField w 25 7

/-! ## Immediates (R63 to R68) -/

/-- A mask of n ones at the low end (R64). -/
def lowMask (n : Nat) : Word := (1#32 <<< n) - 1#32

/-- The insert-field primitive (R64). -/
def insertField (base : Word) (lo n : Nat) (src : Word) : Word :=
  (base &&& ~~~(lowMask n <<< lo)) ||| ((src &&& lowMask n) <<< lo)

/-- I immediate: the whole word shifted right arithmetically by 20 (R63). -/
def immIOf (w : Word) : Word := w.sshiftRight 20

/-- S immediate: bits 4:0 of the I immediate overwritten with word bits 11:7 (R65). -/
def immSOf (w : Word) : Word := insertField (immIOf w) 0 5 (w >>> 7)

/-- Branch immediate, from the S immediate: bit 11 relocated, bit 0 cleared (R66, 90_conflicts.md C1). Bit 11 takes the S
immediate's bit 0, which holds word bit 7 (`BIMM_BIT11_SOURCE = 7`), or keeps word bit 31. -/
def immBOfWith (c : Config) (w : Word) : Word :=
  match c.branchBit11 with
  | .bit7 => insertField (insertField (immSOf w) 11 1 (immSOf w)) 0 1 0#32
  | .bit31 => insertField (immSOf w) 0 1 0#32

/-- U immediate: the word's upper 20 bits, right-shifted to the low 20 bits, unsigned (R67, 90_conflicts.md C3). -/
def immUOf (w : Word) : Word := w >>> 12

/-- UJ (jump) immediate: an arithmetic right shift by 11, three copies in order, bit 0 cleared (R68). -/
def immJOf (w : Word) : Word :=
  insertField (insertField (insertField (insertField (w.sshiftRight 11) 12 8 (w >>> 12)) 11 1 (w >>> 20)) 1 10 (w >>> 21)) 0 1 0#32

/-- The DecodedFields: every field and all five immediates of every word (R61, R71). -/
def decodeFieldsWith (c : Config) (w : Word) : DecodedFields where
  opcode := opcodeOf w
  rd     := rdOf w
  funct3 := funct3Of w
  rs1    := rs1Of w
  rs2    := rs2Of w
  funct7 := funct7Of w
  shamt  := shamtOf w
  immI   := immIOf w
  immS   := immSOf w
  immB   := immBOfWith c w
  immU   := immUOf w
  immJ   := immJOf w

/-! ## Opcode numbers (R72). PRESUMED: RV32I's (notes/assumptions/1.md). -/

def opRegister : BitVec 7 := 0b0110011#7
def opImmediate : BitVec 7 := 0b0010011#7
def opLoad : BitVec 7 := 0b0000011#7
def opStore : BitVec 7 := 0b0100011#7
def opBranch : BitVec 7 := 0b1100011#7
def opLui : BitVec 7 := 0b0110111#7
def opAuipc : BitVec 7 := 0b0010111#7
def opJal : BitVec 7 := 0b1101111#7
def opJalr : BitVec 7 := 0b1100111#7
def opSystem : BitVec 7 := 0b1110011#7
def opNoOp : BitVec 7 := 0b0000000#7

/-- The "specific funct7 bit pattern" that selects sub, sra and srai (R81). -/
def funct7Alt : BitVec 7 := 0b0100000#7

/-! ## Unrecognised words (R84) -/

/-- A word is unrecognised when its opcode is none of R72's, or it has the all-zero opcode and is not the no-op (R82), or its funct3 is
one R76, R77, R78 or R83 call unrecognised, or, under `STRICT_FUNCT7`, its funct7 is one R81 rejects. Written from the rules' own
lists, apart from the decoder. -/
def unrecognisedWith (c : Config) (w : Word) : Bool :=
  let f3 := funct3Of w
  let f7 := funct7Of w
  if opcodeOf w = opLoad then decide (f3 ∈ [0b001#3, 0b011#3, 0b101#3, 0b110#3, 0b111#3])
  else if opcodeOf w = opStore then decide (f3 ∈ [0b001#3, 0b011#3, 0b100#3, 0b101#3, 0b110#3, 0b111#3])
  else if opcodeOf w = opBranch then decide (f3 ∈ [0b010#3, 0b011#3])
  else if opcodeOf w = opSystem then decide (f3 ≠ 0#3)
  else if opcodeOf w = opNoOp then decide (f3 ≠ 0#3) || decide (f7 ≠ 0#7)
  else if opcodeOf w = opRegister then
    c.strictFunct7 && decide (f7 ≠ 0#7) && !(decide (f7 = funct7Alt) && decide (f3 ∈ [0b000#3, 0b101#3]))
  else if opcodeOf w = opImmediate then
    c.strictFunct7 && ((decide (f3 = 0b001#3) && decide (f7 ≠ 0#7)) ||
      (decide (f3 = 0b101#3) && decide (f7 ≠ 0#7) && decide (f7 ≠ funct7Alt)))
  else decide (opcodeOf w ∉ [opLui, opAuipc, opJal, opJalr])

def unrecognised (w : Word) : Bool := unrecognisedWith params w

/-! ## The values an encoding can hold (R63 to R68, R86) -/

/-- A sign-extended 12-bit value (R63, R65): −2048 to 2047. -/
def fitsSigned12 (imm : Word) : Bool := (imm.extractLsb' 0 12).signExtend 32 == imm

/-- A sign-extended 13-bit value with bit 0 clear (R66), or 12-bit under `BIMM_BIT11_SOURCE = 31`. -/
def fitsBranchWith (c : Config) (imm : Word) : Bool :=
  match c.branchBit11 with
  | .bit7 => (imm.extractLsb' 0 13).signExtend 32 == imm && !imm.getLsbD 0
  | .bit31 => fitsSigned12 imm && !imm.getLsbD 0

def fitsBranch (imm : Word) : Bool := fitsBranchWith params imm

/-- A zero-extended 20-bit value (R67). -/
def fitsUpper (imm : Word) : Bool := decide (imm.toNat < 2 ^ 20)

/-- A sign-extended 21-bit value with bit 0 clear (R68). -/
def fitsJump (imm : Word) : Bool := (imm.extractLsb' 0 21).signExtend 32 == imm && !imm.getLsbD 0

end Sys2Proof
end

