-- ==== Sys2Proof/WellFormed.lean ====
section
/-! DEFINITION. Which instructions have an encoding: 30_encoding.md R62 to R70, R84, R86. Register indices and shift amounts carry their
bounds in their types; immediates and undefined words are checked here. -/

namespace Sys2Proof

/-- An instruction is well-formed when its immediate is one its format can hold (R69) and, for `undefined`, when its word is one R84
calls unrecognised. -/
def Instr.wf : Instr → Bool
  | .add .. => true
  | .sub .. => true
  | .and .. => true
  | .or .. => true
  | .xor .. => true
  | .sll .. => true
  | .srl .. => true
  | .sra .. => true
  | .slt .. => true
  | .sltu .. => true
  | .addi _ _ imm => fitsSigned12 imm
  | .andi _ _ imm => fitsSigned12 imm
  | .ori _ _ imm => fitsSigned12 imm
  | .xori _ _ imm => fitsSigned12 imm
  | .slli .. => true
  | .srli .. => true
  | .srai .. => true
  | .slti _ _ imm => fitsSigned12 imm
  | .sltiu _ _ imm => fitsSigned12 imm
  | .lui _ imm => fitsUpper imm
  | .auipc _ imm => fitsUpper imm
  | .lw _ _ imm => fitsSigned12 imm
  | .lb _ _ imm => fitsSigned12 imm
  | .lbu _ _ imm => fitsSigned12 imm
  | .sw _ _ imm => fitsSigned12 imm
  | .sb _ _ imm => fitsSigned12 imm
  | .beq _ _ imm => fitsBranch imm
  | .bne _ _ imm => fitsBranch imm
  | .bge _ _ imm => fitsBranch imm
  | .bgeu _ _ imm => fitsBranch imm
  | .blt _ _ imm => fitsBranch imm
  | .bltu _ _ imm => fitsBranch imm
  | .jal _ imm => fitsJump imm
  | .jalr _ _ imm => fitsSigned12 imm
  | .nop => true
  | .undefined w => unrecognised w
  | .ecall => true

end Sys2Proof
end

