-- ==== Sys2Proof/Decode.lean ====
section
/-! DEFINITION. The Decoder and the Dispatcher's classification (30_encoding.md R60 to R84), total on every word and every list of bytes,
then the encoder, written from the same encoding tables, and the opcode table of spec/opcode_table.json as data. -/

namespace Sys2Proof

/-! ## classifyFormat (R72) -/

/-- The InstructionFormat, from the opcode alone (and, for the all-zero opcode, funct3 and funct7) (R72, R82). -/
def classifyFormat (opcode : BitVec 7) (funct3 : BitVec 3) (funct7 : BitVec 7) : InstructionFormat :=
  if opcode = opRegister then .register
  else if opcode = opImmediate then .immediate
  else if opcode = opLoad then .immediate
  else if opcode = opStore then .store
  else if opcode = opBranch then .branch
  else if opcode = opLui then .upperImmediate
  else if opcode = opAuipc then .upperImmediate
  else if opcode = opJal then .jump
  else if opcode = opJalr then .immediate
  else if opcode = opSystem then .immediate
  else if opcode = opNoOp then (if funct3 = 0#3 ∧ funct7 = 0#7 then .noOp else .undefined)
  else .undefined

/-! ## classifyInstruction (R73 to R84) -/

/-- The register-register group (R74, R81). -/
def registerGroupWith (c : Config) (funct3 : BitVec 3) (funct7 : BitVec 7) : InstructionId :=
  if funct7 = funct7Alt ∧ funct3 = 0b000#3 then .sub
  else if funct7 = funct7Alt ∧ funct3 = 0b101#3 then .sra
  else if c.strictFunct7 ∧ funct7 ≠ 0#7 then .undefined
  else if funct3 = 0b000#3 then .add
  else if funct3 = 0b001#3 then .sll
  else if funct3 = 0b010#3 then .slt
  else if funct3 = 0b011#3 then .sltu
  else if funct3 = 0b100#3 then .xor
  else if funct3 = 0b101#3 then .srl
  else if funct3 = 0b110#3 then .or
  else .and

/-- The register-immediate group (R75, R81). -/
def immediateGroupWith (c : Config) (funct3 : BitVec 3) (funct7 : BitVec 7) : InstructionId :=
  if funct3 = 0b000#3 then .addi
  else if funct3 = 0b001#3 then (if c.strictFunct7 ∧ funct7 ≠ 0#7 then .undefined else .slli)
  else if funct3 = 0b010#3 then .slti
  else if funct3 = 0b011#3 then .sltiu
  else if funct3 = 0b100#3 then .xori
  else if funct3 = 0b101#3 then
    (if funct7 = funct7Alt then .srai else if c.strictFunct7 ∧ funct7 ≠ 0#7 then .undefined else .srli)
  else if funct3 = 0b110#3 then .ori
  else .andi

/-- The load group (R76). -/
def loadGroup (funct3 : BitVec 3) : InstructionId :=
  if funct3 = 0b000#3 then .lb
  else if funct3 = 0b010#3 then .lw
  else if funct3 = 0b100#3 then .lbu
  else .undefined

/-- The store group (R77). -/
def storeGroup (funct3 : BitVec 3) : InstructionId :=
  if funct3 = 0b000#3 then .sb
  else if funct3 = 0b010#3 then .sw
  else .undefined

/-- The branch group (R78). -/
def branchGroup (funct3 : BitVec 3) : InstructionId :=
  if funct3 = 0b000#3 then .beq
  else if funct3 = 0b001#3 then .bne
  else if funct3 = 0b100#3 then .blt
  else if funct3 = 0b101#3 then .bge
  else if funct3 = 0b110#3 then .bltu
  else if funct3 = 0b111#3 then .bgeu
  else .undefined

/-- The InstructionId, keyed by the opcode group and then by funct3 and funct7 as R73 says; single-member groups by opcode alone (R79),
the system group by funct3 (R83), the all-zero opcode by funct3 and funct7 (R82), every other word Undefined (R84). -/
def classifyInstructionWith (c : Config) (opcode : BitVec 7) (funct3 : BitVec 3) (funct7 : BitVec 7) : InstructionId :=
  if opcode = opRegister then registerGroupWith c funct3 funct7
  else if opcode = opImmediate then immediateGroupWith c funct3 funct7
  else if opcode = opLoad then loadGroup funct3
  else if opcode = opStore then storeGroup funct3
  else if opcode = opBranch then branchGroup funct3
  else if opcode = opLui then .lui
  else if opcode = opAuipc then .auipc
  else if opcode = opJal then .jal
  else if opcode = opJalr then .jalr
  else if opcode = opSystem then (if funct3 = 0#3 then .ecall else .undefined)
  else if opcode = opNoOp then (if funct3 = 0#3 ∧ funct7 = 0#7 then .nop else .undefined)
  else .undefined

/-- The InstructionId of a word. -/
def idOfWith (c : Config) (w : Word) : InstructionId :=
  classifyInstructionWith c (opcodeOf w) (funct3Of w) (funct7Of w)

/-- The InstructionFormat of a word. -/
def formatOf (w : Word) : InstructionFormat := classifyFormat (opcodeOf w) (funct3Of w) (funct7Of w)

/-! ## The decoder (R69, R71) -/

/-- The instruction an InstructionId names with the fields it uses (R69). `w` is the word, which an undefined instruction keeps. -/
def assemble (id : InstructionId) (f : DecodedFields) (w : Word) : Instr :=
  match id with
  | .add => .add f.rd f.rs1 f.rs2
  | .sub => .sub f.rd f.rs1 f.rs2
  | .and => .and f.rd f.rs1 f.rs2
  | .or => .or f.rd f.rs1 f.rs2
  | .xor => .xor f.rd f.rs1 f.rs2
  | .sll => .sll f.rd f.rs1 f.rs2
  | .srl => .srl f.rd f.rs1 f.rs2
  | .sra => .sra f.rd f.rs1 f.rs2
  | .slt => .slt f.rd f.rs1 f.rs2
  | .sltu => .sltu f.rd f.rs1 f.rs2
  | .addi => .addi f.rd f.rs1 f.immI
  | .andi => .andi f.rd f.rs1 f.immI
  | .ori => .ori f.rd f.rs1 f.immI
  | .xori => .xori f.rd f.rs1 f.immI
  | .slli => .slli f.rd f.rs1 f.shamt
  | .srli => .srli f.rd f.rs1 f.shamt
  | .srai => .srai f.rd f.rs1 f.shamt
  | .slti => .slti f.rd f.rs1 f.immI
  | .sltiu => .sltiu f.rd f.rs1 f.immI
  | .lui => .lui f.rd f.immU
  | .auipc => .auipc f.rd f.immU
  | .lw => .lw f.rd f.rs1 f.immI
  | .lb => .lb f.rd f.rs1 f.immI
  | .lbu => .lbu f.rd f.rs1 f.immI
  | .sw => .sw f.rs1 f.rs2 f.immS
  | .sb => .sb f.rs1 f.rs2 f.immS
  | .beq => .beq f.rs1 f.rs2 f.immB
  | .bne => .bne f.rs1 f.rs2 f.immB
  | .bge => .bge f.rs1 f.rs2 f.immB
  | .bgeu => .bgeu f.rs1 f.rs2 f.immB
  | .blt => .blt f.rs1 f.rs2 f.immB
  | .bltu => .bltu f.rs1 f.rs2 f.immB
  | .jal => .jal f.rd f.immJ
  | .jalr => .jalr f.rd f.rs1 f.immI
  | .nop => .nop
  | .undefined => .undefined w
  | .ecall => .ecall

/-- Decode one instruction word under a configuration (R211, R212). Total: every word is one of the 35 instructions, nop, or
undefined (R85). -/
def decodeWith (c : Config) (w : Word) : Instr := assemble (idOfWith c w) (decodeFieldsWith c w) w

/-- The machine's decoder. -/
def decode (w : Word) : Instr := decodeWith params w

/-- Why a list of bytes holds no instruction: it has fewer than the four bytes every instruction takes (R60). -/
inductive DecodeReject where
  | truncated
  deriving DecidableEq, Repr

/-- What decoding a list of bytes gives: the instruction and the bytes after it, or a rejection by name. -/
inductive DecodeResult where
  | instr (i : Instr) (rest : List Byte)
  | reject (r : DecodeReject)
  deriving DecidableEq, Repr

/-- The word of four bytes, lowest address first: little-endian (R49). -/
def wordOfBytes (b0 b1 b2 b3 : Byte) : Word := b3 ++ b2 ++ b1 ++ b0

/-- The four bytes of a word, lowest address first (R40, R49). -/
def bytesOfWord (w : Word) : List Byte :=
  [w.extractLsb' 0 8, w.extractLsb' 8 8, w.extractLsb' 16 8, w.extractLsb' 24 8]

/-- Decode the instruction at the head of a list of bytes (R49, R60). -/
def decodeBytes : List Byte → DecodeResult
  | b0 :: b1 :: b2 :: b3 :: rest => .instr (decode (wordOfBytes b0 b1 b2 b3)) rest
  | _ => .reject .truncated

/-- The instruction the decoder reads from an instruction whose bits are w, bit 0 the least significant bit of its one word; the bits
above nbits are 0, and an instruction has 32 bits (R60). -/
def decodeTableWord (nbits w : Nat) : Option Instr :=
  if nbits ≤ 32 then
    match decodeBytes (bytesOfWord (BitVec.ofNat 32 (w % 2 ^ nbits))) with
    | .instr i _ => some i
    | .reject _ => none
  else none

/-! ## The encoder (R62, R74 to R83). Fields no rule examines are 0 (R81's canonical funct7; notes/assumptions/21.md). -/

/-- A register index as its 5-bit field (R70). -/
def regBits (r : RegIx) : BitVec 5 := BitVec.ofFin r

/-- Format Register (R62). -/
def encodeR (opcode : BitVec 7) (funct3 : BitVec 3) (funct7 : BitVec 7) (rd rs1 rs2 : RegIx) : Word :=
  funct7 ++ regBits rs2 ++ regBits rs1 ++ funct3 ++ regBits rd ++ opcode

/-- Format Immediate (R62, R63). -/
def encodeI (opcode : BitVec 7) (funct3 : BitVec 3) (rd rs1 : RegIx) (imm : Word) : Word :=
  imm.extractLsb' 0 12 ++ regBits rs1 ++ funct3 ++ regBits rd ++ opcode

/-- Format Immediate, shift form (R62). -/
def encodeShift (funct3 : BitVec 3) (funct7 : BitVec 7) (rd rs1 : RegIx) (shamt : BitVec 5) : Word :=
  funct7 ++ shamt ++ regBits rs1 ++ funct3 ++ regBits rd ++ opImmediate

/-- Format Store (R62, R65). -/
def encodeS (funct3 : BitVec 3) (rs1 rs2 : RegIx) (imm : Word) : Word :=
  imm.extractLsb' 5 7 ++ regBits rs2 ++ regBits rs1 ++ funct3 ++ imm.extractLsb' 0 5 ++ opStore

/-- Format Branch (R62, R66). -/
def encodeB (funct3 : BitVec 3) (rs1 rs2 : RegIx) (imm : Word) : Word :=
  imm.extractLsb' 12 1 ++ imm.extractLsb' 5 6 ++ regBits rs2 ++ regBits rs1 ++ funct3 ++ imm.extractLsb' 1 4 ++
    imm.extractLsb' 11 1 ++ opBranch

/-- Format Upper-immediate (R62, R67). -/
def encodeU (opcode : BitVec 7) (rd : RegIx) (imm : Word) : Word :=
  imm.extractLsb' 0 20 ++ regBits rd ++ opcode

/-- Format Jump (R62, R68). -/
def encodeJ (rd : RegIx) (imm : Word) : Word :=
  imm.extractLsb' 20 1 ++ imm.extractLsb' 1 10 ++ imm.extractLsb' 11 1 ++ imm.extractLsb' 12 8 ++ regBits rd ++ opJal

/-- The word of a well-formed instruction. -/
def encode : Instr → Word
  | .add rd rs1 rs2 => encodeR opRegister 0b000#3 0#7 rd rs1 rs2
  | .sub rd rs1 rs2 => encodeR opRegister 0b000#3 funct7Alt rd rs1 rs2
  | .sll rd rs1 rs2 => encodeR opRegister 0b001#3 0#7 rd rs1 rs2
  | .slt rd rs1 rs2 => encodeR opRegister 0b010#3 0#7 rd rs1 rs2
  | .sltu rd rs1 rs2 => encodeR opRegister 0b011#3 0#7 rd rs1 rs2
  | .xor rd rs1 rs2 => encodeR opRegister 0b100#3 0#7 rd rs1 rs2
  | .srl rd rs1 rs2 => encodeR opRegister 0b101#3 0#7 rd rs1 rs2
  | .sra rd rs1 rs2 => encodeR opRegister 0b101#3 funct7Alt rd rs1 rs2
  | .or rd rs1 rs2 => encodeR opRegister 0b110#3 0#7 rd rs1 rs2
  | .and rd rs1 rs2 => encodeR opRegister 0b111#3 0#7 rd rs1 rs2
  | .addi rd rs1 imm => encodeI opImmediate 0b000#3 rd rs1 imm
  | .slti rd rs1 imm => encodeI opImmediate 0b010#3 rd rs1 imm
  | .sltiu rd rs1 imm => encodeI opImmediate 0b011#3 rd rs1 imm
  | .xori rd rs1 imm => encodeI opImmediate 0b100#3 rd rs1 imm
  | .ori rd rs1 imm => encodeI opImmediate 0b110#3 rd rs1 imm
  | .andi rd rs1 imm => encodeI opImmediate 0b111#3 rd rs1 imm
  | .slli rd rs1 shamt => encodeShift 0b001#3 0#7 rd rs1 shamt
  | .srli rd rs1 shamt => encodeShift 0b101#3 0#7 rd rs1 shamt
  | .srai rd rs1 shamt => encodeShift 0b101#3 funct7Alt rd rs1 shamt
  | .lui rd imm => encodeU opLui rd imm
  | .auipc rd imm => encodeU opAuipc rd imm
  | .lb rd rs1 imm => encodeI opLoad 0b000#3 rd rs1 imm
  | .lw rd rs1 imm => encodeI opLoad 0b010#3 rd rs1 imm
  | .lbu rd rs1 imm => encodeI opLoad 0b100#3 rd rs1 imm
  | .sb rs1 rs2 imm => encodeS 0b000#3 rs1 rs2 imm
  | .sw rs1 rs2 imm => encodeS 0b010#3 rs1 rs2 imm
  | .beq rs1 rs2 imm => encodeB 0b000#3 rs1 rs2 imm
  | .bne rs1 rs2 imm => encodeB 0b001#3 rs1 rs2 imm
  | .blt rs1 rs2 imm => encodeB 0b100#3 rs1 rs2 imm
  | .bge rs1 rs2 imm => encodeB 0b101#3 rs1 rs2 imm
  | .bltu rs1 rs2 imm => encodeB 0b110#3 rs1 rs2 imm
  | .bgeu rs1 rs2 imm => encodeB 0b111#3 rs1 rs2 imm
  | .jal rd imm => encodeJ rd imm
  | .jalr rd rs1 imm => encodeI opJalr 0b000#3 rd rs1 imm
  | .ecall => 0x00000073#32
  | .nop => 0x00000000#32
  | .undefined w => w

/-! ## The opcode table (spec/opcode_table.json, with STRICT_FUNCT7 = false) -/

/-- One row of the table: a word w is the row's when `w & mask = value`. -/
structure OpcodeRow where
  id    : InstructionId
  value : Word
  mask  : Word
  deriving DecidableEq, Repr

def registerRows : List OpcodeRow :=
  [⟨.sub, 0x40000033#32, 0xFE00707F#32⟩, ⟨.sra, 0x40005033#32, 0xFE00707F#32⟩, ⟨.add, 0x00000033#32, 0x0000707F#32⟩,
   ⟨.srl, 0x00005033#32, 0x0000707F#32⟩, ⟨.sll, 0x00001033#32, 0x0000707F#32⟩, ⟨.slt, 0x00002033#32, 0x0000707F#32⟩,
   ⟨.sltu, 0x00003033#32, 0x0000707F#32⟩, ⟨.xor, 0x00004033#32, 0x0000707F#32⟩, ⟨.or, 0x00006033#32, 0x0000707F#32⟩,
   ⟨.and, 0x00007033#32, 0x0000707F#32⟩]

def immediateRows : List OpcodeRow :=
  [⟨.srai, 0x40005013#32, 0xFE00707F#32⟩, ⟨.srli, 0x00005013#32, 0x0000707F#32⟩, ⟨.slli, 0x00001013#32, 0x0000707F#32⟩,
   ⟨.addi, 0x00000013#32, 0x0000707F#32⟩, ⟨.slti, 0x00002013#32, 0x0000707F#32⟩, ⟨.sltiu, 0x00003013#32, 0x0000707F#32⟩,
   ⟨.xori, 0x00004013#32, 0x0000707F#32⟩, ⟨.ori, 0x00006013#32, 0x0000707F#32⟩, ⟨.andi, 0x00007013#32, 0x0000707F#32⟩]

def loadStoreRows : List OpcodeRow :=
  [⟨.lb, 0x00000003#32, 0x0000707F#32⟩, ⟨.lw, 0x00002003#32, 0x0000707F#32⟩, ⟨.lbu, 0x00004003#32, 0x0000707F#32⟩,
   ⟨.sb, 0x00000023#32, 0x0000707F#32⟩, ⟨.sw, 0x00002023#32, 0x0000707F#32⟩]

def controlRows : List OpcodeRow :=
  [⟨.beq, 0x00000063#32, 0x0000707F#32⟩, ⟨.bne, 0x00001063#32, 0x0000707F#32⟩, ⟨.blt, 0x00004063#32, 0x0000707F#32⟩,
   ⟨.bge, 0x00005063#32, 0x0000707F#32⟩, ⟨.bltu, 0x00006063#32, 0x0000707F#32⟩, ⟨.bgeu, 0x00007063#32, 0x0000707F#32⟩,
   ⟨.lui, 0x00000037#32, 0x0000007F#32⟩, ⟨.auipc, 0x00000017#32, 0x0000007F#32⟩, ⟨.jal, 0x0000006F#32, 0x0000007F#32⟩,
   ⟨.jalr, 0x00000067#32, 0x0000007F#32⟩]

def systemRows : List OpcodeRow :=
  [⟨.ecall, 0x00000073#32, 0x0000707F#32⟩, ⟨.nop, 0x00000000#32, 0xFE00707F#32⟩, ⟨.undefined, 0x00000000#32, 0x00000000#32⟩]

/-- The rows in decode order. -/
def opcodeTable : List OpcodeRow := registerRows ++ immediateRows ++ loadStoreRows ++ controlRows ++ systemRows

/-- The first row, in order, for which `(w & mask) = value`; undefined where there is none. -/
def tableLookup : List OpcodeRow → Word → InstructionId
  | [], _ => .undefined
  | r :: rows, w => if w &&& r.mask = r.value then r.id else tableLookup rows w

end Sys2Proof
end

