-- ==== Sys2Proof/Machine/Memory.lean ====
section
/-! DEFINITION. The memory as plain data and its byte and word operations: 10_state.md R32, 20_memory.md R40, R45, R47. A memory is a
list of (address, byte) cells, one entry per byte lane that differs from what an unlisted address reads as. -/

namespace Sys2Proof.Machine

/-- The storage, one cell per listed byte address; byte address 4i + k is lane k of word M[i] (R40, notes/assumptions/23.md). -/
abbrev Memory := List Host.Cell

/-- What an address no cell lists reads as: `INIT_FILL` (R36, R256). -/
def Memory.unlistedWith (c : Config) (a : Nat) : Byte :=
  match c.initFill with
  | .zero => 0#8
  | .any => Config.freeFill a

/-- What an unlisted address reads as in this machine: 0. UNVERIFIED: the spec's decision D16 (notes/assumptions/15.md). -/
def Memory.unlisted (a : Nat) : Byte := Memory.unlistedWith params a

/-- The byte at an address (R40, R45). -/
def Memory.get : Memory → Nat → Byte
  | [], a => Memory.unlisted a
  | (b, v) :: rest, a => if b = a then v else Memory.get rest a

/-- The cells without those at an address. -/
def Memory.erase : Memory → Nat → Memory
  | [], _ => []
  | (b, v) :: rest, a => if b = a then Memory.erase rest a else (b, v) :: Memory.erase rest a

/-- The cells with the address listed, in rising order. -/
def Memory.insert : Memory → Nat → Byte → Memory
  | [], a, v => [(a, v)]
  | (b, w) :: rest, a, v =>
    if a < b then (a, v) :: (b, w) :: rest
    else if a = b then (a, v) :: rest
    else (b, w) :: Memory.insert rest a v

/-- Write one byte; writing what an unlisted address reads as removes the entry. -/
def Memory.set (m : Memory) (a : Nat) (v : Byte) : Memory :=
  if v = Memory.unlisted a then m.erase a else m.insert a v

/-- The canonical form: addresses strictly rising, every one inside the storage, no entry equal to what its address reads as
unlisted. -/
abbrev Memory.wf (m : Memory) : Prop :=
  m.Pairwise (fun x y => x.1 < y.1) ∧ ∀ c ∈ m, c.1 < params.memBytes ∧ c.2 ≠ Memory.unlisted c.1

/-- The word M[i]: its lanes 3, 2, 1, 0 from the high end (R40, R45). -/
def Memory.wordAt (m : Memory) (i : Nat) : Word :=
  m.get (4 * i + 3) ++ m.get (4 * i + 2) ++ m.get (4 * i + 1) ++ m.get (4 * i)

/-- Store a word as M[i] (R46). -/
def Memory.setWordAt (m : Memory) (i : Nat) (v : Word) : Memory :=
  (((m.set (4 * i) (v.extractLsb' 0 8)).set (4 * i + 1) (v.extractLsb' 8 8)).set (4 * i + 2) (v.extractLsb' 16 8)).set
    (4 * i + 3) (v.extractLsb' 24 8)

/-- Store a list of bytes at consecutive addresses (R255). -/
def Memory.setBytes (m : Memory) (a : Nat) : List Byte → Memory
  | [] => m
  | b :: bs => Memory.setBytes (m.set a b) (a + 1) bs

/-- The address names storage (R41). -/
def inRange (a : Word) : Bool := decide (a.toNat < params.memBytes)

/-- The address is a multiple of 4 (R42). -/
def aligned4 (a : Word) : Bool := a.extractLsb' 0 2 == 0#2

/-- The word index of an address: `a >>u 2` (R40). -/
def wordIndex (a : Word) : Nat := (a >>> 2).toNat

end Sys2Proof.Machine
end

