-- ==== Sys2Proof/Machine/State.lean ====
section
/-! DEFINITION. The state of the machine, all the spec gives it, as plain data; the reasons a step can stop; the reset state
(10_state.md R20 to R36; 60_exceptions.md R231, R232, R236). -/

namespace Sys2Proof.Machine

/-- The conditions of R231 the document names. -/
inductive Condition where
  | misalignedAccess
  | undefinedInstruction
  | unsupportedSyscall
  | imageLoadFailure
  deriving DecidableEq, Repr

/-- The spec's own identifiers of the conditions (R231). -/
def Condition.number : Condition → Nat
  | .misalignedAccess => 1
  | .undefinedInstruction => 2
  | .unsupportedSyscall => 3
  | .imageLoadFailure => 4

/-- Whether the core records the condition in the report log (R231, the column "recorded"): an unsupported syscall is silently ignored
and an image load failure is the host's. -/
def Condition.recorded : Condition → Bool
  | .misalignedAccess => true
  | .undefinedInstruction => true
  | .unsupportedSyscall => false
  | .imageLoadFailure => false

/-- An entry of the report log (R232): the condition, the address of the instruction being executed, and the resolved address or the
instruction word. -/
structure Report where
  kind : Condition
  pc   : Word
  info : Word
  deriving DecidableEq, Repr

/-- Why a step has no successor state. -/
inductive Fault where
  /-- F1, `OutOfRange(addr)` (R236): raised by fetch, lw, sw, lb, lbu, sb and the print-memory-word ecall when the access reaches the
  storage with an address at or above `MEM_BYTES`. Safe: the spec gives the access no behaviour (D8, notes/assumptions/8.md). -/
  | outOfRange (addr : Word)
  /-- F2, `ShiftRange(sa)` (R236): raised by sll, srl and sra only under `SHIFT_REG_POLICY = fault_ge32` (R106); this machine's
  parameters do not select it. `amount` is the whole of x[rs2] (DESIGN CHOICE, notes/assumptions/31.md). Safe. -/
  | shiftRange (amount : Word)
  /-- Raised by step when the state is Stopped (R28, R217): a Stopped state has no step. Safe: it is the end of a run, not an error
  (notes/assumptions/19.md). -/
  | stopped
  deriving DecidableEq, Repr

/-- Why an instruction has no meaning in the model. -/
inductive Refusal where
  /-- Raised by exec for an instruction whose meaning is not written yet. Safe. No instruction of this model raises it. -/
  | notModelled (mnemonic : String)
  deriving DecidableEq, Repr

/-- The state. The run state (R28), the DecodedFields (R34), the format and the InstructionId are functions of it
(notes/assumptions/24.md). -/
structure State where
  /-- The RegisterFile: RF[0] to RF[31] (R20). -/
  regs : Vector Word 32
  /-- The program counter (R24). -/
  pc   : Word
  /-- The jump-taken flag (R26). -/
  jt   : Bool
  /-- The stop flag (R27). -/
  stop : Bool
  /-- The instruction word register IW (R33). -/
  iw   : Word
  /-- The memory (R32). -/
  mem  : Memory
  /-- The output trace OUT, oldest event first (R35, R196). -/
  out  : List OutEvent
  /-- The report log LOG, oldest report first (R35, R232). -/
  log  : List Report
  deriving DecidableEq, Repr

/-- What an instruction's routine answers. -/
abbrev Result := Host.Outcome State Fault Refusal

/-- The register file at reset: zero but for the stack and global pointers (R36, R253). -/
def resetRegs : Vector Word 32 :=
  ((Vector.replicate 32 0#32).set params.spReg.val params.spInit params.spReg.isLt).set params.gpReg.val params.gpInit
    params.gpReg.isLt

/-- The reset state (R36, R250), with no launch image: every byte holds `INIT_FILL`. -/
def State.reset : State where
  regs := resetRegs
  pc   := params.pcInit
  jt   := false
  stop := false
  iw   := 0#32
  mem  := []
  out  := []
  log  := []

end Sys2Proof.Machine
end

