-- ==== Sys2Proof/Machine/Ops.lean ====
section
/-! DEFINITION. The named operations over registers, memory and the logs that the instruction meanings use: 10_state.md R21, R22, R24;
20_memory.md R41 to R48, R59; 45_noop_system.md R196; 60_exceptions.md R232. This hardware takes no exceptions (R230): a report is
its one shared response to a condition. -/

namespace Sys2Proof.Machine

/-! ## Registers -/

/-- `x[i]`: 0 for index 0, else the cell (R21). -/
def State.reg (s : State) (i : RegIx) : Word := if i = 0 then 0#32 else s.regs[i.val]

/-- `x[i] <- v`: writes the cell. A write to register 0 is not prevented; no read sees it, and the end of the step clears the cell (R22,
R214, 90_conflicts.md C5, notes/assumptions/20.md). -/
def State.setReg (s : State) (i : RegIx) (v : Word) : State := { s with regs := s.regs.set i.val v i.isLt }

/-- `pc <- t` (R24). -/
def State.setPc (s : State) (t : Word) : State := { s with pc := t }

/-- The memory replaced by what an access left. -/
def State.setMem (s : State) (m : Memory) : State := { s with mem := m }

/-- `IW <- w` (R33, R210). -/
def State.setIw (s : State) (w : Word) : State := { s with iw := w }

/-! ## Logs -/

/-- `report K(pc, info)`: append to the report log, with the address of the instruction being executed (R232). -/
def State.report (s : State) (k : Condition) (info : Word) : State := { s with log := s.log ++ [⟨k, s.pc, info⟩] }

/-- `emit E`: append to the output trace (R196). -/
def State.emit (s : State) (e : OutEvent) : State := { s with out := s.out ++ [e] }

/-! ## Memory -/

/-- The resolved address (R41): base + offset, modulo 2^32. -/
def resolve (base off : Word) : Word := base + off

/-- `MemRead(ra, 4)` (R42): the alignment check first, a report and 0 when it fails; then the range check; then the word. -/
def memReadWord (ra : Word) (s : State) : Except Fault (Word × State) :=
  if aligned4 ra then
    if inRange ra then .ok (s.mem.wordAt (wordIndex ra), s) else .error (.outOfRange ra)
  else .ok (0#32, s.report .misalignedAccess ra)

/-- `MemRead(ra, 1)` (R43): the range check only, then the byte of lane ra mod 4 of word ra / 4. -/
def memReadByte (ra : Word) (s : State) : Except Fault Byte :=
  if inRange ra then .ok (s.mem.get (4 * wordIndex ra + (ra.extractLsb' 0 2).toNat)) else .error (.outOfRange ra)

/-- `MemWrite(ra, 4, v)` (R46): the alignment check first, a report and no write when it fails; then the range check; then the write. -/
def memWriteWord (ra v : Word) (s : State) : Except Fault State :=
  if aligned4 ra then
    if inRange ra then .ok (s.setMem (s.mem.setWordAt (wordIndex ra) v)) else .error (.outOfRange ra)
  else .ok (s.report .misalignedAccess ra)

/-- The lane a byte store replaces (R47, 90_conflicts.md C2): of the resolved address, or of the offset alone. -/
def storeLaneWith (c : Config) (ra off : Word) : Nat :=
  match c.storeByteLane with
  | .resolved => (ra.extractLsb' 0 2).toNat
  | .offset => (off.extractLsb' 0 2).toNat

/-- The byte address a byte store writes: the replaced lane of word ra / 4 (R47). -/
def storeByteAddrWith (c : Config) (base off : Word) : Nat :=
  4 * wordIndex (resolve base off) + storeLaneWith c (resolve base off) off

/-- `MemWrite(ra, 1, v)` (R47): the range check, then one lane of the containing word is replaced; the other three are unchanged. -/
def memWriteByteWith (c : Config) (base off : Word) (v : Byte) (s : State) : Except Fault State :=
  if inRange (resolve base off) then .ok (s.setMem (s.mem.set (storeByteAddrWith c base off) v))
  else .error (.outOfRange (resolve base off))

/-- The machine's byte write. -/
def memWriteByte (base off : Word) (v : Byte) (s : State) : Except Fault State := memWriteByteWith params base off v s

/-- The byte address the machine's byte store writes. -/
def storeByteAddr (base off : Word) : Nat := storeByteAddrWith params base off

/-- The word a print-memory-word call reads (R59, R198): index a >>u 2, no alignment check, the index checked against `MEM_WORDS`. -/
def memReadIndexed (a : Word) (s : State) : Except Fault (Nat × Word) :=
  if wordIndex a < params.memWords then .ok (wordIndex a, s.mem.wordAt (wordIndex a)) else .error (.outOfRange a)

end Sys2Proof.Machine
end

