-- ==== Sys2Proof/Machine/Operands.lean ====
section
/-! DEFINITION. The operand forms (30_encoding.md R70): register operands, the shift amounts (40_integer_register.md R106), the
base-plus-offset address (43_load_store.md R150), the link value (44_control_transfer.md R184), and a truth value as a register
value. -/

namespace Sys2Proof.Machine

/-- The one addressing mode: x[rs1] + offset (R150). -/
def effectiveAddr (rs1 : RegIx) (off : Word) (s : State) : Word := resolve (s.reg rs1) off

/-- The shift amount of a register shift, from x[rs2] (R106). DESIGN CHOICE (notes/assumptions/31.md): under `fault_ge32` the fault carries
the whole of x[rs2], the amount the test was made on, not its low five bits. -/
def shiftAmountWith (c : Config) (b : Word) : Except Fault Nat :=
  match c.shiftRegPolicy with
  | .mask5 => .ok (b.extractLsb' 0 5).toNat
  | .faultGe32 => if 32 ≤ b.toNat then .error (.shiftRange b) else .ok (b.extractLsb' 0 5).toNat

/-- The link value: pc + 4 modulo 2^32 (R184). -/
def linkValue (s : State) : Word := s.pc + 4#32

/-- `cond ? 1 : 0` (R110, R111, R128, R129). -/
def boolWord (b : Bool) : Word := if b then 1#32 else 0#32

/-- The upper immediate shifted into place: immU << 12 (R140, R141). -/
def upperValue (immU : Word) : Word := immU <<< 12

end Sys2Proof.Machine
end

