-- ==== Sys2Proof/Machine/Flags.lean ====
section
/-! DEFINITION. The comparisons and the two flags, which are all the flags the hardware has (10_state.md R26, R27, R29): signed and
unsigned comparison on exactly 32 bits (00_scope.md R10), and the setting and clearing of jt and stop. -/

namespace Sys2Proof.Machine

/-- `a <s b` (00_scope.md, Notation). -/
def ltSigned (a b : Word) : Bool := decide (sint a < sint b)

/-- `a <u b`, on exactly 32 bits (R10). -/
def ltUnsigned (a b : Word) : Bool := decide (uint a < uint b)

/-- `a >=s b`. -/
def geSigned (a b : Word) : Bool := decide (sint a ≥ sint b)

/-- `a >=u b`, on exactly 32 bits (R10). -/
def geUnsigned (a b : Word) : Bool := decide (uint a ≥ uint b)

/-- `jt <- 1` (R26). -/
def State.setJt (s : State) : State := { s with jt := true }

/-- `jt <- 0` (R213, R215). -/
def State.clearJt (s : State) : State := { s with jt := false }

/-- `stop <- 1` (R27, R199). -/
def State.setStop (s : State) : State := { s with stop := true }

/-- Write pc and set the jump-taken flag: what every taken branch and every jump does (R24, R26). -/
def State.jumpTo (s : State) (t : Word) : State := (s.setPc t).setJt

end Sys2Proof.Machine
end

