-- ==== Sys2Proof/Machine/ControlLoop.lean ====
section
/-! DEFINITION. The phases of a step and its enabling (46_control_loop.md R210 to R219; 10_state.md R28, R34). -/

namespace Sys2Proof.Machine

/-! ## The run state -/

/-- The run states (R28). -/
inductive RunState where
  | running
  | stopped
  deriving DecidableEq, Repr

/-- The boundary condition on pc (R216): at or above `DATA_BOUNDARY`, unsigned, or equal to it under `STOP_COMPARE = eq`. -/
def boundaryWith (c : Config) (pc : Word) : Bool :=
  match c.stopCompare with
  | .ge => decide (uint pc ≥ uint c.dataBoundary)
  | .eq => decide (pc = c.dataBoundary)

/-- The boundary condition of this machine. -/
def boundary (pc : Word) : Bool := boundaryWith params pc

/-- A step is enabled exactly when the state is Running (R218). -/
def State.running (s : State) : Bool := !s.stop && !boundary s.pc

/-- The run state (R28): Stopped exactly when stop is set or the boundary condition holds. -/
def State.runState (s : State) : RunState := if s.running then .running else .stopped

/-! ## The decoded view of IW (R34) -/

def State.decodedFields (s : State) : DecodedFields := decodeFieldsWith params s.iw
def State.instructionFormat (s : State) : InstructionFormat := formatOf s.iw
def State.instructionId (s : State) : InstructionId := idOfWith params s.iw

/-! ## The phases -/

/-- Fetch: IW <- MemRead(pc, 4) (R210). A misaligned pc is reported and gives the word 0. -/
def fetch (s : State) : Except Fault State :=
  match memReadWord s.pc s with
  | .ok (w, s') => .ok (s'.setIw w)
  | .error f => .error f

/-- The register-zero invariant: RF[0] <- 0 (R214). -/
def State.forceZero (s : State) : State := { s with regs := s.regs.set 0 0#32 }

/-- The program-counter update: a set jt is cleared and pc kept, else pc advances by 4 (R215). -/
def State.updatePc (s : State) : State := if s.jt then s.clearJt else s.setPc (s.pc + 4#32)

/-- What follows execute: R214, then R215. -/
def State.endStep (s : State) : State := s.forceZero.updatePc

/-- The whole step over an execution unit (R218): fetch, decode and dispatch, execute with jt clear, the register-zero invariant, the
program-counter update. A Stopped state has no step (R217). -/
def controlStep (execute : Instr → State → Result) (s : State) : Result :=
  if s.running then
    match fetch s with
    | .error f => .fault f
    | .ok s1 =>
      match execute (decode s1.iw) s1.clearJt with
      | .next s2 => .next s2.endStep
      | .fault f => .fault f
      | .refused r => .refused r
  else .fault .stopped

/-! ## Placing an instruction word -/

/-- The state with the 32-bit instruction whose low nbits bits are w stored where the next step fetches: the four bytes at pc, low byte
first (R49, R210). Where no instruction can be fetched at pc (misaligned, or no storage there) nothing changes. -/
def State.placeWord (s : State) (nbits w : Nat) : State :=
  if aligned4 s.pc && inRange s.pc then
    s.setMem (s.mem.setWordAt (wordIndex s.pc) (BitVec.ofNat 32 (w % 2 ^ nbits)))
  else s

end Sys2Proof.Machine
end

