-- ==== Sys2Proof/Machine/ControlTransfer.lean ====
section
/-! DEFINITION. Branches and jumps (44_control_transfer.md R170 to R189). No target is checked (R188, R189). -/

namespace Sys2Proof.Machine

/-- The template of R170: compare x[rs1] and x[rs2]; when the condition holds, pc <- pc + immB and jt <- 1. -/
def branchOp (cond : Word → Word → Bool) (rs1 rs2 : RegIx) (imm : Word) (s : State) : Result :=
  if cond (s.reg rs1) (s.reg rs2) then .next (s.jumpTo (s.pc + imm)) else .next s

/-- beq (R171). -/
def execBeq (rs1 rs2 : RegIx) (imm : Word) (s : State) : Result := branchOp (fun a b => a == b) rs1 rs2 imm s

/-- bne (R172). -/
def execBne (rs1 rs2 : RegIx) (imm : Word) (s : State) : Result := branchOp (fun a b => a != b) rs1 rs2 imm s

/-- bge (R173): signed. -/
def execBge (rs1 rs2 : RegIx) (imm : Word) (s : State) : Result := branchOp geSigned rs1 rs2 imm s

/-- bgeu (R174): unsigned. -/
def execBgeu (rs1 rs2 : RegIx) (imm : Word) (s : State) : Result := branchOp geUnsigned rs1 rs2 imm s

/-- blt (R175): signed. -/
def execBlt (rs1 rs2 : RegIx) (imm : Word) (s : State) : Result := branchOp ltSigned rs1 rs2 imm s

/-- bltu (R176): unsigned. -/
def execBltu (rs1 rs2 : RegIx) (imm : Word) (s : State) : Result := branchOp ltUnsigned rs1 rs2 imm s

/-- jal (R180): the link and the target are both computed from the jal's own address. -/
def execJal (rd : RegIx) (imm : Word) (s : State) : Result := .next ((s.setReg rd (linkValue s)).jumpTo (s.pc + imm))

/-- The target jalr writes to pc: bit 0 cleared only under `JALR_CLEAR_BIT0` (R182, R183). -/
def jalrMaskWith (c : Config) (t : Word) : Word := if c.jalrClearBit0 then t &&& 0xFFFFFFFE#32 else t

/-- jalr under a configuration (R182, R183, R186): rs1 is read before or after the link is written. -/
def jalrWith (c : Config) (rd rs1 : RegIx) (imm : Word) (s : State) : Result :=
  let linked := s.setReg rd (linkValue s)
  match c.jalrOrder with
  | .readFirst => .next (linked.jumpTo (jalrMaskWith c (s.reg rs1 + imm)))
  | .linkFirst => .next (linked.jumpTo (jalrMaskWith c (linked.reg rs1 + imm)))

/-- jalr (R182). -/
def execJalr (rd rs1 : RegIx) (imm : Word) (s : State) : Result := jalrWith params rd rs1 imm s

end Sys2Proof.Machine
end

