-- ==== Sys2Proof/Machine/IntegerImmediate.lean ====
section
/-! DEFINITION. The nine register-immediate operations (41_integer_immediate.md R120 to R129). -/

namespace Sys2Proof.Machine

/-- The template of R120: read x[rs1], then write x[rd]. -/
def immediateOp (op : Word → Word) (rd rs1 : RegIx) (s : State) : Result := .next (s.setReg rd (op (s.reg rs1)))

/-- addi (R121). -/
def execAddi (rd rs1 : RegIx) (imm : Word) (s : State) : Result := immediateOp (fun a => a + imm) rd rs1 s

/-- andi (R122). -/
def execAndi (rd rs1 : RegIx) (imm : Word) (s : State) : Result := immediateOp (fun a => a &&& imm) rd rs1 s

/-- ori (R123). -/
def execOri (rd rs1 : RegIx) (imm : Word) (s : State) : Result := immediateOp (fun a => a ||| imm) rd rs1 s

/-- xori (R124). -/
def execXori (rd rs1 : RegIx) (imm : Word) (s : State) : Result := immediateOp (fun a => a ^^^ imm) rd rs1 s

/-- slli (R125). -/
def execSlli (rd rs1 : RegIx) (shamt : BitVec 5) (s : State) : Result := immediateOp (fun a => a <<< shamt.toNat) rd rs1 s

/-- srli (R126). -/
def execSrli (rd rs1 : RegIx) (shamt : BitVec 5) (s : State) : Result := immediateOp (fun a => a >>> shamt.toNat) rd rs1 s

/-- srai (R127). -/
def execSrai (rd rs1 : RegIx) (shamt : BitVec 5) (s : State) : Result :=
  immediateOp (fun a => a.sshiftRight shamt.toNat) rd rs1 s

/-- slti (R128): signed. -/
def execSlti (rd rs1 : RegIx) (imm : Word) (s : State) : Result := immediateOp (fun a => boolWord (ltSigned a imm)) rd rs1 s

/-- sltiu (R129): the sign-extended immediate compared as unsigned. -/
def execSltiu (rd rs1 : RegIx) (imm : Word) (s : State) : Result := immediateOp (fun a => boolWord (ltUnsigned a imm)) rd rs1 s

end Sys2Proof.Machine
end

