-- ==== Sys2Proof/Machine/IntegerRegister.lean ====
section
/-! DEFINITION. The ten register-register operations (40_integer_register.md R100 to R111). -/

namespace Sys2Proof.Machine

/-- The template of R100: read x[rs1] and x[rs2], then write x[rd]. -/
def registerOp (op : Word → Word → Word) (rd rs1 rs2 : RegIx) (s : State) : Result :=
  .next (s.setReg rd (op (s.reg rs1) (s.reg rs2)))

/-- The template of the register shifts: the amount of R106, then R100. -/
def registerShiftWith (c : Config) (op : Word → Nat → Word) (rd rs1 rs2 : RegIx) (s : State) : Result :=
  match shiftAmountWith c (s.reg rs2) with
  | .ok sa => .next (s.setReg rd (op (s.reg rs1) sa))
  | .error f => .fault f

/-- add (R101): the sum modulo 2^32. -/
def execAdd (rd rs1 rs2 : RegIx) (s : State) : Result := registerOp (fun a b => a + b) rd rs1 rs2 s

/-- sub (R102): the difference modulo 2^32. -/
def execSub (rd rs1 rs2 : RegIx) (s : State) : Result := registerOp (fun a b => a - b) rd rs1 rs2 s

/-- and (R103). -/
def execAnd (rd rs1 rs2 : RegIx) (s : State) : Result := registerOp (fun a b => a &&& b) rd rs1 rs2 s

/-- or (R104). -/
def execOr (rd rs1 rs2 : RegIx) (s : State) : Result := registerOp (fun a b => a ||| b) rd rs1 rs2 s

/-- xor (R105). -/
def execXor (rd rs1 rs2 : RegIx) (s : State) : Result := registerOp (fun a b => a ^^^ b) rd rs1 rs2 s

/-- sll (R107): zeros shifted in at the low end. -/
def execSll (rd rs1 rs2 : RegIx) (s : State) : Result := registerShiftWith params (fun a n => a <<< n) rd rs1 rs2 s

/-- srl (R108): zeros shifted in at the high end. -/
def execSrl (rd rs1 rs2 : RegIx) (s : State) : Result := registerShiftWith params (fun a n => a >>> n) rd rs1 rs2 s

/-- sra (R109): bit 31 copied in. -/
def execSra (rd rs1 rs2 : RegIx) (s : State) : Result := registerShiftWith params (fun a n => a.sshiftRight n) rd rs1 rs2 s

/-- slt (R110): signed. -/
def execSlt (rd rs1 rs2 : RegIx) (s : State) : Result := registerOp (fun a b => boolWord (ltSigned a b)) rd rs1 rs2 s

/-- sltu (R111): unsigned. -/
def execSltu (rd rs1 rs2 : RegIx) (s : State) : Result := registerOp (fun a b => boolWord (ltUnsigned a b)) rd rs1 rs2 s

end Sys2Proof.Machine
end

