-- ==== Sys2Proof/Machine/LoadStore.lean ====
section
/-! DEFINITION. Loads and stores (43_load_store.md R150 to R157): base plus offset, the memory access before the register write, a
misaligned word access reported and never faulting. -/

namespace Sys2Proof.Machine

/-- lw (R151): a misaligned address is reported and writes 0 to rd. -/
def execLw (rd rs1 : RegIx) (imm : Word) (s : State) : Result :=
  match memReadWord (effectiveAddr rs1 imm s) s with
  | .ok (v, s') => .next (s'.setReg rd v)
  | .error f => .fault f

/-- The template of the byte loads: the byte, extended, into rd (R44). -/
def loadByte (extend : Byte → Word) (rd rs1 : RegIx) (imm : Word) (s : State) : Result :=
  match memReadByte (effectiveAddr rs1 imm s) s with
  | .ok b => .next (s.setReg rd (extend b))
  | .error f => .fault f

/-- lb (R152): sign-extended. -/
def execLb (rd rs1 : RegIx) (imm : Word) (s : State) : Result := loadByte (fun b => b.signExtend 32) rd rs1 imm s

/-- lbu (R153): zero-extended. -/
def execLbu (rd rs1 : RegIx) (imm : Word) (s : State) : Result := loadByte (fun b => b.zeroExtend 32) rd rs1 imm s

/-- sw (R154): a misaligned address is reported and nothing is written. Index-based (R156). -/
def execSw (rs1 rs2 : RegIx) (imm : Word) (s : State) : Result :=
  match memWriteWord (effectiveAddr rs1 imm s) (s.reg rs2) s with
  | .ok s' => .next s'
  | .error f => .fault f

/-- sb under a configuration (R155): the low byte of x[rs2] (R48) into one lane. -/
def storeByteWith (c : Config) (rs1 rs2 : RegIx) (imm : Word) (s : State) : Result :=
  match memWriteByteWith c (s.reg rs1) imm ((s.reg rs2).extractLsb' 0 8) s with
  | .ok s' => .next s'
  | .error f => .fault f

/-- sb (R155). -/
def execSb (rs1 rs2 : RegIx) (imm : Word) (s : State) : Result := storeByteWith params rs1 rs2 imm s

end Sys2Proof.Machine
end

