-- ==== Sys2Proof/Machine/NoopSystem.lean ====
section
/-! DEFINITION. The no-op, undefined instructions and the system call (45_noop_system.md R190 to R200). -/

namespace Sys2Proof.Machine

/-- nop (R190): nothing. -/
def execNop (s : State) : Result := .next s

/-- An undefined instruction (R191): reported with its word, and nothing else. -/
def execUndefined (word : Word) (s : State) : Result := .next (s.report .undefinedInstruction word)

/-- Print integer (R197). -/
def printInt (a : Word) (s : State) : Result := .next (s.emit (.outInt a))

/-- Print memory word (R198). -/
def printMemWord (a : Word) (s : State) : Result :=
  match memReadIndexed a s with
  | .ok (i, v) => .next (s.emit (.outMemWord i v))
  | .error f => .fault f

/-- Terminate (R199). -/
def terminate (s : State) : Result := .next s.setStop

/-- ecall (R192, R193): selected by all 32 bits of the syscall number; any other number has no effect (R194). -/
def execEcall (s : State) : Result :=
  let n := s.reg params.syscallNumReg
  let a := s.reg params.syscallArgReg
  if n = params.sysPrintInt then printInt a s
  else if n = params.sysPrintMemWord then printMemWord a s
  else if n = params.sysExit then terminate s
  else .next s

/-- The integer whose decimal text a print-integer event stands for (R197): the value read as signed. The memory-word print has no stated
form (R200). -/
def printedInt : OutEvent → Option Int
  | .outInt v => some (sint v)
  | .outMemWord _ _ => none

/-- The text the host shows for the output trace, event by event: `RENDER` is open (R200). -/
def hostText (s : State) : List String := s.out.map Config.render

end Sys2Proof.Machine
end

