-- ==== Sys2Proof/Machine/UpperImmediate.lean ====
section
/-! DEFINITION. The upper-immediate instructions (42_upper_immediate.md R140, R141). -/

namespace Sys2Proof.Machine

/-- lui (R140). -/
def execLui (rd : RegIx) (immU : Word) (s : State) : Result := .next (s.setReg rd (upperValue immU))

/-- auipc (R141): relative to the address of the auipc itself. -/
def execAuipc (rd : RegIx) (immU : Word) (s : State) : Result := .next (s.setReg rd (s.pc + upperValue immU))

end Sys2Proof.Machine
end

