-- ==== Sys2Proof/Machine/Step.lean ====
section
/-! DEFINITION. One step of the machine (46_control_loop.md R218), and the placing of an instruction where the next step fetches. -/

namespace Sys2Proof.Machine

/-- One step: the control loop over the execution unit. -/
def step (s : State) : Host.Outcome State Fault Refusal := controlStep exec s

/-- The state with one instruction stored where step fetches its next instruction. -/
def State.withFetchWord (s : State) (nbits w : Nat) : State := s.placeWord nbits w

end Sys2Proof.Machine
end

