-- ==== Sys2Proof/Machine/Assembler.lean ====
section
/-! DEFINITION. The assembler syntax and the pseudo-instructions (30_encoding.md R86, R87) and the register names (10_state.md R20). All
of it is general knowledge in the spec, no hardware, and no other definition of the machine uses it (notes/assumptions/28.md). -/

namespace Sys2Proof.Machine

/-- The ABI name of a register (R20). PRESUMED. -/
def abiName (r : RegIx) : String :=
  (["zero", "ra", "sp", "gp", "tp", "t0", "t1", "t2", "s0", "s1", "a0", "a1", "a2", "a3", "a4", "a5"] ++
    ["a6", "a7", "s2", "s3", "s4", "s5", "s6", "s7", "s8", "s9", "s10", "s11", "t3", "t4", "t5", "t6"]).getD r.val ""

/-- The name x0 to x31 of a register (R86). -/
def xName (r : RegIx) : String := "x" ++ toString r.val

/-- The three-operand form `op a, b, c`. -/
def asm3 (op a b c : String) : String := op ++ " " ++ a ++ ", " ++ b ++ ", " ++ c

/-- The load and store form `op a, imm(b)`. -/
def asmMem (op a : String) (imm : Word) (b : RegIx) : String := op ++ " " ++ a ++ ", " ++ toString imm.toInt ++ "(" ++ xName b ++ ")"

/-- The assembler text of an instruction, with branch and jump offsets written as the signed offset (R86). An undefined word has no
syntax and is written as data. -/
def asmText : Instr → String
  | .add rd rs1 rs2 => asm3 "add" (xName rd) (xName rs1) (xName rs2)
  | .sub rd rs1 rs2 => asm3 "sub" (xName rd) (xName rs1) (xName rs2)
  | .and rd rs1 rs2 => asm3 "and" (xName rd) (xName rs1) (xName rs2)
  | .or rd rs1 rs2 => asm3 "or" (xName rd) (xName rs1) (xName rs2)
  | .xor rd rs1 rs2 => asm3 "xor" (xName rd) (xName rs1) (xName rs2)
  | .sll rd rs1 rs2 => asm3 "sll" (xName rd) (xName rs1) (xName rs2)
  | .srl rd rs1 rs2 => asm3 "srl" (xName rd) (xName rs1) (xName rs2)
  | .sra rd rs1 rs2 => asm3 "sra" (xName rd) (xName rs1) (xName rs2)
  | .slt rd rs1 rs2 => asm3 "slt" (xName rd) (xName rs1) (xName rs2)
  | .sltu rd rs1 rs2 => asm3 "sltu" (xName rd) (xName rs1) (xName rs2)
  | .addi rd rs1 imm => asm3 "addi" (xName rd) (xName rs1) (toString imm.toInt)
  | .andi rd rs1 imm => asm3 "andi" (xName rd) (xName rs1) (toString imm.toInt)
  | .ori rd rs1 imm => asm3 "ori" (xName rd) (xName rs1) (toString imm.toInt)
  | .xori rd rs1 imm => asm3 "xori" (xName rd) (xName rs1) (toString imm.toInt)
  | .slli rd rs1 shamt => asm3 "slli" (xName rd) (xName rs1) (toString shamt.toNat)
  | .srli rd rs1 shamt => asm3 "srli" (xName rd) (xName rs1) (toString shamt.toNat)
  | .srai rd rs1 shamt => asm3 "srai" (xName rd) (xName rs1) (toString shamt.toNat)
  | .slti rd rs1 imm => asm3 "slti" (xName rd) (xName rs1) (toString imm.toInt)
  | .sltiu rd rs1 imm => asm3 "sltiu" (xName rd) (xName rs1) (toString imm.toInt)
  | .lui rd imm => "lui " ++ xName rd ++ ", " ++ toString imm.toNat
  | .auipc rd imm => "auipc " ++ xName rd ++ ", " ++ toString imm.toNat
  | .lw rd rs1 imm => asmMem "lw" (xName rd) imm rs1
  | .lb rd rs1 imm => asmMem "lb" (xName rd) imm rs1
  | .lbu rd rs1 imm => asmMem "lbu" (xName rd) imm rs1
  | .sw rs1 rs2 imm => asmMem "sw" (xName rs2) imm rs1
  | .sb rs1 rs2 imm => asmMem "sb" (xName rs2) imm rs1
  | .beq rs1 rs2 imm => asm3 "beq" (xName rs1) (xName rs2) (toString imm.toInt)
  | .bne rs1 rs2 imm => asm3 "bne" (xName rs1) (xName rs2) (toString imm.toInt)
  | .bge rs1 rs2 imm => asm3 "bge" (xName rs1) (xName rs2) (toString imm.toInt)
  | .bgeu rs1 rs2 imm => asm3 "bgeu" (xName rs1) (xName rs2) (toString imm.toInt)
  | .blt rs1 rs2 imm => asm3 "blt" (xName rs1) (xName rs2) (toString imm.toInt)
  | .bltu rs1 rs2 imm => asm3 "bltu" (xName rs1) (xName rs2) (toString imm.toInt)
  | .jal rd imm => "jal " ++ xName rd ++ ", " ++ toString imm.toInt
  | .jalr rd rs1 imm => asmMem "jalr" (xName rd) imm rs1
  | .nop => ".word 0"
  | .undefined w => ".word " ++ toString w.toNat
  | .ecall => "ecall"

/-- The pseudo-instructions of R87. A target is given as its offset from the pseudo-instruction's first instruction. -/
inductive Pseudo where
  | nop
  | mv (rd rs : RegIx)
  | li (rd : RegIx) (imm : Word)
  | not (rd rs : RegIx)
  | neg (rd rs : RegIx)
  | seqz (rd rs : RegIx)
  | snez (rd rs : RegIx)
  | sltz (rd rs : RegIx)
  | sgtz (rd rs : RegIx)
  | beqz (rs : RegIx) (offset : Word)
  | bnez (rs : RegIx) (offset : Word)
  | blez (rs : RegIx) (offset : Word)
  | bgez (rs : RegIx) (offset : Word)
  | bltz (rs : RegIx) (offset : Word)
  | bgtz (rs : RegIx) (offset : Word)
  | bgt (a b : RegIx) (offset : Word)
  | ble (a b : RegIx) (offset : Word)
  | bgtu (a b : RegIx) (offset : Word)
  | bleu (a b : RegIx) (offset : Word)
  | j (offset : Word)
  | jal (offset : Word)
  | jr (rs : RegIx)
  | jalr (rs : RegIx)
  | ret
  | la (rd : RegIx) (offset : Word)
  deriving DecidableEq, Repr

/-- `lo` of li and la: the low 12 bits, sign-extended (R87). -/
def splitLo (imm : Word) : Word := (imm.extractLsb' 0 12).signExtend 32

/-- `hi` of li and la: what is left, as a 20-bit upper immediate (R87). -/
def splitHi (imm : Word) : Word := (imm - splitLo imm) >>> 12

/-- The expansion of a pseudo-instruction into instructions (R87). -/
def Pseudo.expand : Pseudo → List Instr
  | .nop => [.addi 0 0 0#32]
  | .mv rd rs => [.addi rd rs 0#32]
  | .li rd imm => if fitsSigned12 imm then [.addi rd 0 imm] else [.lui rd (splitHi imm), .addi rd rd (splitLo imm)]
  | .not rd rs => [.xori rd rs (-1#32)]
  | .neg rd rs => [.sub rd 0 rs]
  | .seqz rd rs => [.sltiu rd rs 1#32]
  | .snez rd rs => [.sltu rd 0 rs]
  | .sltz rd rs => [.slt rd rs 0]
  | .sgtz rd rs => [.slt rd 0 rs]
  | .beqz rs t => [.beq rs 0 t]
  | .bnez rs t => [.bne rs 0 t]
  | .blez rs t => [.bge 0 rs t]
  | .bgez rs t => [.bge rs 0 t]
  | .bltz rs t => [.blt rs 0 t]
  | .bgtz rs t => [.blt 0 rs t]
  | .bgt a b t => [.blt b a t]
  | .ble a b t => [.bge b a t]
  | .bgtu a b t => [.bltu b a t]
  | .bleu a b t => [.bgeu b a t]
  | .j t => [.jal 0 t]
  | .jal t => [.jal 1 t]
  | .jr rs => [.jalr 0 rs 0#32]
  | .jalr rs => [.jalr 1 rs 0#32]
  | .ret => [.jalr 0 1 0#32]
  | .la rd t => [.auipc rd (splitHi t), .addi rd rd (splitLo t)]

end Sys2Proof.Machine
end

