-- ==== Sys2Proof/Machine/Launch.lean ====
section
/-! DEFINITION. The launch premise (70_reset_and_hazards.md R254 to R256; 60_exceptions.md R237): the reset state with the code and data
images in memory, for the launches R256 admits. Reading an image from a file is the host's (R4). -/

namespace Sys2Proof.Machine

/-- The conditions of R256 on one image: its offset and its length are multiples of 4 and its length is within its segment. -/
def imageFits (offset limit : Nat) (image : List Byte) : Bool :=
  decide (offset % 4 = 0) && decide (image.length % 4 = 0) && decide (image.length ≤ limit)

/-- A launch is admitted only when both images meet R256's conditions (D20, notes/assumptions/18.md). -/
def launchAdmitted (code data : List Byte) : Bool :=
  imageFits (uint params.codeBase) (uint params.dataBoundary - uint params.codeBase) code &&
    imageFits (uint params.dataBoundary) (params.memBytes - uint params.dataBoundary) data

/-- The launch memory (R255, R256): the code image at `CODE_BASE`, the data image at `DATA_BOUNDARY`, `INIT_FILL` elsewhere. -/
def launchMemory (code data : List Byte) : Memory :=
  (Memory.setBytes [] (uint params.codeBase) code).setBytes (uint params.dataBoundary) data

/-- The state a run starts from: none for a launch R256 does not admit. An image that failed to load, or no data image, is the empty
list (R237). -/
def State.launch (code data : List Byte) : Option State :=
  if launchAdmitted code data then some (State.reset.setMem (launchMemory code data)) else none

end Sys2Proof.Machine
end

