-- ==== Sys2Proof/Safety.lean ====
section
/-! DEFINITION. The terms claims use: what a run is and how it ends (46_control_loop.md R219, R220), the machine invariant, what a state
has in common with another (frames), what a step fetches, and which access faults and which report an instruction makes
(60_exceptions.md R231 to R236). -/

namespace Sys2Proof.Machine

/-! ## Runs -/

/-- The states a run goes through from a state: each the step of the one before (R220). -/
inductive Reaches (s : State) : State → Prop where
  | start : Reaches s s
  | step {t u : State} : Reaches s t → Sys2Proof.Machine.step t = .next u → Reaches s u

/-- How a run that cannot go on has ended (R220). -/
inductive RunEnd where
  | boundary
  | exit
  | faulted (f : Fault)
  deriving DecidableEq, Repr

/-- The end of a run at a state, none where a step exists (R220). Only the first two are final states. DESIGN CHOICE
(notes/assumptions/30.md): where stop is set and pc is at the boundary together (an exit ecall at 0x1FFC), the end is called exit; R220
lists both ways and gives no precedence. -/
def State.runEnd (s : State) : Option RunEnd :=
  if s.stop then some .exit
  else if boundary s.pc then some .boundary
  else
    match Sys2Proof.Machine.step s with
    | .next _ => none
    | .fault f => some (.faulted f)
    | .refused _ => none

/-- A safe run goes on or has ended Stopped: it has not met a model fault, after which the spec says nothing (R236, C4). -/
def State.safe (s : State) : Prop := ∀ f, s.runEnd ≠ some (.faulted f)

/-- Several routines one after another on one state, stopping at the first that does not answer next: what a sequence of instructions
computes, the program counter apart. -/
def execAll : List Instr → State → Result
  | [], s => .next s
  | i :: is, s =>
    match exec i s with
    | .next t => execAll is t
    | .fault f => .fault f
    | .refused r => .refused r

/-! ## The invariant -/

/-- Memory in canonical form, jt clear between steps (R215), RF[0] zero (R214), and only recorded conditions in the report log
(R231). -/
def State.Inv (s : State) : Prop :=
  s.mem.wf ∧ s.jt = false ∧ s.regs[0] = 0#32 ∧ ∀ r ∈ s.log, r.kind.recorded = true

/-! ## Frames -/

/-- Every general register reads as before. -/
def SameRegs (s t : State) : Prop := ∀ r, t.reg r = s.reg r

/-- Register rd reads v (unless it is x0, which reads 0) and every other register reads as before. -/
def WritesReg (rd : RegIx) (v : Word) (s t : State) : Prop := ∀ r, t.reg r = if r = rd ∧ r ≠ 0 then v else s.reg r

/-- Every byte of memory reads as before. -/
def SameMem (s t : State) : Prop := ∀ a, t.mem.get a = s.mem.get a

/-- Every byte outside the n bytes at a reads as before. -/
def SameMemOutside (a n : Nat) (s t : State) : Prop := ∀ b, ¬ (a ≤ b ∧ b < a + n) → t.mem.get b = s.mem.get b

/-- The program counter, the two flags and IW are as before. -/
def SameControl (s t : State) : Prop := t.pc = s.pc ∧ t.jt = s.jt ∧ t.stop = s.stop ∧ t.iw = s.iw

/-- Nothing was printed and nothing was reported. -/
def SameLogs (s t : State) : Prop := t.out = s.out ∧ t.log = s.log

/-- Only a general register may differ. -/
def OnlyReg (rd : RegIx) (v : Word) (s t : State) : Prop := WritesReg rd v s t ∧ SameControl s t ∧ SameMem s t ∧ SameLogs s t

/-! ## What a step fetches -/

/-- The word at an aligned pc (R210). -/
def State.fetchedWord (s : State) : Word := s.mem.wordAt (wordIndex s.pc)

/-- The state is Running, its pc is aligned, and the word at pc is w: the next step decodes w. -/
def Fetches (s : State) (w : Word) : Prop := s.running = true ∧ aligned4 s.pc = true ∧ s.fetchedWord = w

/-- The state the execution unit runs on once w has been fetched: IW holds w and jt is clear (R213). -/
def State.executing (s : State) (w : Word) : State := (s.setIw w).clearJt

/-- The general register an instruction writes, if it writes one (10_state.md R23). -/
def destReg : Instr → Option RegIx
  | .add rd _ _ => some rd
  | .sub rd _ _ => some rd
  | .and rd _ _ => some rd
  | .or rd _ _ => some rd
  | .xor rd _ _ => some rd
  | .sll rd _ _ => some rd
  | .srl rd _ _ => some rd
  | .sra rd _ _ => some rd
  | .slt rd _ _ => some rd
  | .sltu rd _ _ => some rd
  | .addi rd _ _ => some rd
  | .andi rd _ _ => some rd
  | .ori rd _ _ => some rd
  | .xori rd _ _ => some rd
  | .slli rd _ _ => some rd
  | .srli rd _ _ => some rd
  | .srai rd _ _ => some rd
  | .slti rd _ _ => some rd
  | .sltiu rd _ _ => some rd
  | .lui rd _ => some rd
  | .auipc rd _ => some rd
  | .lw rd _ _ => some rd
  | .lb rd _ _ => some rd
  | .lbu rd _ _ => some rd
  | .jal rd _ => some rd
  | .jalr rd _ _ => some rd
  | .sw .. => none
  | .sb .. => none
  | .beq .. => none
  | .bne .. => none
  | .bge .. => none
  | .bgeu .. => none
  | .blt .. => none
  | .bltu .. => none
  | .nop => none
  | .undefined _ => none
  | .ecall => none

/-! ## Faults and reports, written from the table of R231 -/

/-- The address of the access that faults, where the instruction makes one at or above `MEM_BYTES` (R231, row F1): aligned word
accesses, byte accesses, and print-memory-word. -/
def accessFault (i : Instr) (s : State) : Option Word :=
  let outside (a : Word) : Option Word := if params.memBytes ≤ uint a then some a else none
  let word (a : Word) : Option Word := if uint a % 4 = 0 then outside a else none
  match i with
  | .lw _ rs1 imm => word (s.reg rs1 + imm)
  | .sw rs1 _ imm => word (s.reg rs1 + imm)
  | .lb _ rs1 imm => outside (s.reg rs1 + imm)
  | .lbu _ rs1 imm => outside (s.reg rs1 + imm)
  | .sb rs1 _ imm => outside (s.reg rs1 + imm)
  | .ecall => if s.reg params.syscallNumReg = params.sysPrintMemWord then outside (s.reg params.syscallArgReg) else none
  | _ => none

/-- The reports an instruction's routine appends (R231 rows 1 and 2, R232 to R234). -/
def reportsOf (i : Instr) (s : State) : List Report :=
  let word (a : Word) : List Report := if uint a % 4 = 0 then [] else [⟨.misalignedAccess, s.pc, a⟩]
  match i with
  | .lw _ rs1 imm => word (s.reg rs1 + imm)
  | .sw rs1 _ imm => word (s.reg rs1 + imm)
  | .undefined w => [⟨.undefinedInstruction, s.pc, w⟩]
  | _ => []

/-- The routine sets the jump-taken flag: a branch whose condition holds, jal, jalr (R26). -/
def takesJump (i : Instr) (s : State) : Prop :=
  match i with
  | .beq rs1 rs2 _ => s.reg rs1 = s.reg rs2
  | .bne rs1 rs2 _ => s.reg rs1 ≠ s.reg rs2
  | .bge rs1 rs2 _ => sint (s.reg rs1) ≥ sint (s.reg rs2)
  | .bgeu rs1 rs2 _ => uint (s.reg rs1) ≥ uint (s.reg rs2)
  | .blt rs1 rs2 _ => sint (s.reg rs1) < sint (s.reg rs2)
  | .bltu rs1 rs2 _ => uint (s.reg rs1) < uint (s.reg rs2)
  | .jal _ _ => True
  | .jalr _ _ _ => True
  | _ => False

end Sys2Proof.Machine
end

