-- ==== Sys2Proof/Certificates/Slice0/Obligations.lean ====
section
/-! DEFINITION. The statements for the provers: what the rules of spec/ say the decoder, the instructions and the machine do. Each
docstring names its rule, or the spec's decision or inference and the log entry it rests on. -/

open Sys2Proof Sys2Proof.Machine

/-! ## The decoder (30_encoding.md) -/

/-- The seven fields at R61's positions make up the word, and shamt is the rs2 field. The positions are RV32I's (R61, decision D1,
notes/assumptions/1.md). -/
def Obligations.FieldsReassembleWord : Prop :=
  ∀ w : Word,
    (funct7Of w ++ regBits (rs2Of w) ++ regBits (rs1Of w) ++ funct3Of w ++ regBits (rdOf w) ++ opcodeOf w : Word) = w ∧
      shamtOf w = regBits (rs2Of w)

/-- R64: `insert(base, lo, n, src)` replaces bits lo+n−1 : lo by the low n bits of src and keeps every other bit of base. -/
def Obligations.InsertFieldReplacesBits : Prop :=
  ∀ (base src : Word) (lo n i : Nat), i < 32 →
    (insertField base lo n src).getLsbD i = if lo ≤ i ∧ i < lo + n then src.getLsbD (i - lo) else base.getLsbD i

/-- R63, R65, R68: the I, S and UJ immediates, each by the document's algorithm and as the direct bit-field concatenation; the U
immediate as the word's upper 20 bits (30_encoding.md R67). -/
def Obligations.ImmediatesMatchBitFields : Prop :=
  ∀ w : Word,
    (immIOf w = w.sshiftRight 20 ∧ immIOf w = (bitField w 20 12).signExtend 32) ∧
    (immSOf w = insertField (immIOf w) 0 5 ((bitField w 7 5).zeroExtend 32) ∧
      immSOf w = (bitField w 25 7 ++ bitField w 7 5 : BitVec 12).signExtend 32) ∧
    immUOf w = (bitField w 12 20).zeroExtend 32 ∧
    (immJOf w =
        insertField (insertField (insertField (insertField (w.sshiftRight 11) 12 8 ((bitField w 12 8).zeroExtend 32)) 11 1
          ((bitField w 20 1).zeroExtend 32)) 1 10 ((bitField w 21 10).zeroExtend 32)) 0 1 0#32 ∧
      immJOf w =
        (bitField w 31 1 ++ bitField w 12 8 ++ bitField w 20 1 ++ bitField w 21 10 ++ 0#1 : BitVec 21).signExtend 32)

/-- R66: the branch immediate is the 13-bit offset with word bit 7 as bit 11 (the spec's resolution of C1, decision D2,
notes/assumptions/2.md); under the alternative `BIMM_BIT11_SOURCE = 31` it is the 12-bit one. -/
def Obligations.BranchImmediateMatchesBitFields : Prop :=
  ∀ w : Word,
    immBOfWith params w =
      (bitField w 31 1 ++ bitField w 7 1 ++ bitField w 25 6 ++ bitField w 8 4 ++ 0#1 : BitVec 13).signExtend 32 ∧
    immBOfWith { params with branchBit11 := .bit31 } w =
      (bitField w 31 1 ++ bitField w 25 6 ++ bitField w 8 4 ++ 0#1 : BitVec 12).signExtend 32

/-- R74, R75, R81: the two arithmetic groups by funct3, funct7 examined only for add/sub, srl/sra and srli/srai. The numbers are
RV32I's (D1, notes/assumptions/1.md); that other funct7 values select the base instruction is decision D13
(notes/assumptions/12.md). -/
def Obligations.ArithmeticGroupsDecode : Prop :=
  ∀ w : Word,
    (opcodeOf w = 0b0110011#7 →
      (funct3Of w = 0b000#3 → funct7Of w ≠ 0b0100000#7 → decode w = .add (rdOf w) (rs1Of w) (rs2Of w)) ∧
      (funct3Of w = 0b000#3 → funct7Of w = 0b0100000#7 → decode w = .sub (rdOf w) (rs1Of w) (rs2Of w)) ∧
      (funct3Of w = 0b001#3 → decode w = .sll (rdOf w) (rs1Of w) (rs2Of w)) ∧
      (funct3Of w = 0b010#3 → decode w = .slt (rdOf w) (rs1Of w) (rs2Of w)) ∧
      (funct3Of w = 0b011#3 → decode w = .sltu (rdOf w) (rs1Of w) (rs2Of w)) ∧
      (funct3Of w = 0b100#3 → decode w = .xor (rdOf w) (rs1Of w) (rs2Of w)) ∧
      (funct3Of w = 0b101#3 → funct7Of w ≠ 0b0100000#7 → decode w = .srl (rdOf w) (rs1Of w) (rs2Of w)) ∧
      (funct3Of w = 0b101#3 → funct7Of w = 0b0100000#7 → decode w = .sra (rdOf w) (rs1Of w) (rs2Of w)) ∧
      (funct3Of w = 0b110#3 → decode w = .or (rdOf w) (rs1Of w) (rs2Of w)) ∧
      (funct3Of w = 0b111#3 → decode w = .and (rdOf w) (rs1Of w) (rs2Of w))) ∧
    (opcodeOf w = 0b0010011#7 →
      (funct3Of w = 0b000#3 → decode w = .addi (rdOf w) (rs1Of w) (immIOf w)) ∧
      (funct3Of w = 0b001#3 → decode w = .slli (rdOf w) (rs1Of w) (shamtOf w)) ∧
      (funct3Of w = 0b010#3 → decode w = .slti (rdOf w) (rs1Of w) (immIOf w)) ∧
      (funct3Of w = 0b011#3 → decode w = .sltiu (rdOf w) (rs1Of w) (immIOf w)) ∧
      (funct3Of w = 0b100#3 → decode w = .xori (rdOf w) (rs1Of w) (immIOf w)) ∧
      (funct3Of w = 0b101#3 → funct7Of w ≠ 0b0100000#7 → decode w = .srli (rdOf w) (rs1Of w) (shamtOf w)) ∧
      (funct3Of w = 0b101#3 → funct7Of w = 0b0100000#7 → decode w = .srai (rdOf w) (rs1Of w) (shamtOf w)) ∧
      (funct3Of w = 0b110#3 → decode w = .ori (rdOf w) (rs1Of w) (immIOf w)) ∧
      (funct3Of w = 0b111#3 → decode w = .andi (rdOf w) (rs1Of w) (immIOf w)))

/-- R76, R77, R78: the load, store and branch groups by funct3, every other funct3 Undefined. The numbers are RV32I's (D1,
notes/assumptions/1.md). -/
def Obligations.LoadStoreBranchGroupsDecode : Prop :=
  ∀ w : Word,
    (opcodeOf w = 0b0000011#7 →
      (funct3Of w = 0b000#3 → decode w = .lb (rdOf w) (rs1Of w) (immIOf w)) ∧
      (funct3Of w = 0b010#3 → decode w = .lw (rdOf w) (rs1Of w) (immIOf w)) ∧
      (funct3Of w = 0b100#3 → decode w = .lbu (rdOf w) (rs1Of w) (immIOf w)) ∧
      (funct3Of w ∈ [0b001#3, 0b011#3, 0b101#3, 0b110#3, 0b111#3] → decode w = .undefined w)) ∧
    (opcodeOf w = 0b0100011#7 →
      (funct3Of w = 0b000#3 → decode w = .sb (rs1Of w) (rs2Of w) (immSOf w)) ∧
      (funct3Of w = 0b010#3 → decode w = .sw (rs1Of w) (rs2Of w) (immSOf w)) ∧
      (funct3Of w ∈ [0b001#3, 0b011#3, 0b100#3, 0b101#3, 0b110#3, 0b111#3] → decode w = .undefined w)) ∧
    (opcodeOf w = 0b1100011#7 →
      (funct3Of w = 0b000#3 → decode w = .beq (rs1Of w) (rs2Of w) (immBOfWith params w)) ∧
      (funct3Of w = 0b001#3 → decode w = .bne (rs1Of w) (rs2Of w) (immBOfWith params w)) ∧
      (funct3Of w = 0b100#3 → decode w = .blt (rs1Of w) (rs2Of w) (immBOfWith params w)) ∧
      (funct3Of w = 0b101#3 → decode w = .bge (rs1Of w) (rs2Of w) (immBOfWith params w)) ∧
      (funct3Of w = 0b110#3 → decode w = .bltu (rs1Of w) (rs2Of w) (immBOfWith params w)) ∧
      (funct3Of w = 0b111#3 → decode w = .bgeu (rs1Of w) (rs2Of w) (immBOfWith params w)) ∧
      (funct3Of w ∈ [0b010#3, 0b011#3] → decode w = .undefined w))

/-- R79, R82, R83: lui, auipc, jal and jalr by opcode alone; the system group by funct3 alone; the all-zero opcode by funct3 and funct7.
The spec's decisions D14 and D15 (notes/assumptions/13.md, 14.md). -/
def Obligations.SingleMemberSystemNoOpDecode : Prop :=
  ∀ w : Word,
    (opcodeOf w = 0b0110111#7 → decode w = .lui (rdOf w) (immUOf w)) ∧
    (opcodeOf w = 0b0010111#7 → decode w = .auipc (rdOf w) (immUOf w)) ∧
    (opcodeOf w = 0b1101111#7 → decode w = .jal (rdOf w) (immJOf w)) ∧
    (opcodeOf w = 0b1100111#7 → decode w = .jalr (rdOf w) (rs1Of w) (immIOf w)) ∧
    (opcodeOf w = 0b1110011#7 →
      (funct3Of w = 0#3 → decode w = .ecall) ∧ (funct3Of w ≠ 0#3 → decode w = .undefined w)) ∧
    (opcodeOf w = 0b0000000#7 →
      (funct3Of w = 0#3 → funct7Of w = 0#7 → decode w = .nop) ∧
      (funct3Of w ≠ 0#3 ∨ funct7Of w ≠ 0#7 → decode w = .undefined w))

/-- R84, R85: a word decodes to Undefined exactly when it is one of the unrecognised words R84 lists (R82 and R83 among them, decisions
D14 and D15, notes/assumptions/13.md, 14.md). That an undefined instruction holds its own word is the model's choice
(notes/assumptions/22.md). -/
def Obligations.UndefinedExactlyUnrecognised : Prop :=
  ∀ w : Word, (decode w = .undefined w ↔ unrecognised w = true) ∧ ∀ v : Word, decode w = .undefined v → v = w

/-- R81's alternative `STRICT_FUNCT7 = true`: funct7 must be 0000000, or 0100000 for add/sub, srl/sra and srli/srai, in the two
arithmetic groups (slli included); any other value is unrecognised, and nothing else changes (decision D13, notes/assumptions/12.md). -/
def Obligations.StrictFunct7Rejects : Prop :=
  ∀ w : Word,
    decodeWith { params with strictFunct7 := true } w =
      if (opcodeOf w = 0b0110011#7 ∧ funct7Of w ≠ 0#7 ∧
            ¬ (funct7Of w = 0b0100000#7 ∧ (funct3Of w = 0b000#3 ∨ funct3Of w = 0b101#3))) ∨
          (opcodeOf w = 0b0010011#7 ∧
            ((funct3Of w = 0b001#3 ∧ funct7Of w ≠ 0#7) ∨
              (funct3Of w = 0b101#3 ∧ funct7Of w ≠ 0#7 ∧ funct7Of w ≠ 0b0100000#7))) then .undefined w
      else decode w

/-- R72: the InstructionFormat of every word. A word that decodes to one of the 35 instructions or nop has that instruction's format; an
undefined word has its group's own format where its opcode is a group's (an unrecognised funct3), and the format Undefined where its
opcode is no group's or is the all-zero opcode. The format of loads, jalr and ecall is decision D1, which words of the all-zero opcode
are the no-op is D14 (notes/assumptions/1.md, 13.md). -/
def Obligations.FormatMatchesInstruction : Prop :=
  ∀ w : Word,
    match decode w with
    | .add .. | .sub .. | .and .. | .or .. | .xor .. | .sll .. | .srl .. | .sra .. | .slt .. | .sltu .. =>
        formatOf w = .register
    | .addi .. | .andi .. | .ori .. | .xori .. | .slli .. | .srli .. | .srai .. | .slti .. | .sltiu .. =>
        formatOf w = .immediate
    | .lw .. | .lb .. | .lbu .. | .jalr .. | .ecall => formatOf w = .immediate
    | .sw .. | .sb .. => formatOf w = .store
    | .beq .. | .bne .. | .bge .. | .bgeu .. | .blt .. | .bltu .. => formatOf w = .branch
    | .lui .. | .auipc .. => formatOf w = .upperImmediate
    | .jal .. => formatOf w = .jump
    | .nop => formatOf w = .noOp
    | .undefined _ =>
        opcodeOf w ∉ [opRegister, opImmediate, opLui, opAuipc, opJal, opJalr] ∧
        (opcodeOf w = opLoad ∨ opcodeOf w = opSystem → formatOf w = .immediate) ∧
        (opcodeOf w = opStore → formatOf w = .store) ∧
        (opcodeOf w = opBranch → formatOf w = .branch) ∧
        (opcodeOf w ∉ [opLoad, opSystem, opStore, opBranch] → formatOf w = .undefined)

/-- Decode and encode agree: decoding the word of a well-formed instruction gives it back, with every operand (R61 to R84). -/
def Obligations.DecodeOfEncode : Prop := ∀ i : Instr, i.wf = true → decode (encode i) = i

/-- Every word decodes to a well-formed instruction (R71, R85), whose own encoding decodes to it again and keeps the opcode. -/
def Obligations.DecodedWordsAreEncodable : Prop :=
  ∀ w : Word,
    (decode w).wf = true ∧ decode (encode (decode w)) = decode w ∧ opcodeOf (encode (decode w)) = opcodeOf w

/-- The dispatcher of R72 to R84 and spec/opcode_table.json, tried in decode order, name the same instruction for every word. -/
def Obligations.DispatcherAgreesWithOpcodeTable : Prop :=
  ∀ w : Word, tableLookup opcodeTable w = (decode w).id ∧ idOfWith params w = (decode w).id

/-- Words written out in the spec's rules and in 95_test_vectors.md decode to the instructions they stand for. -/
def Obligations.SpecifiedWordsDecode : Prop :=
  decode 0x007302B3#32 = .add 5 6 7 ∧ decode 0x407302B3#32 = .sub 5 6 7 ∧ decode 0x41F35293#32 = .srai 5 6 31#5 ∧
  decode 0xFFF30293#32 = .addi 5 6 (-1#32) ∧ decode 0x123452B7#32 = .lui 5 0x12345#32 ∧
  decode 0x00432283#32 = .lw 5 6 4#32 ∧ decode 0xFE732C23#32 = .sw 6 7 (-8#32) ∧
  decode 0xFE029CE3#32 = .bne 5 0 (-8#32) ∧ decode 0xFFDFF0EF#32 = .jal 1 (-4#32) ∧
  decode 0x004280E7#32 = .jalr 1 5 4#32 ∧ decode 0x00100073#32 = .ecall ∧ decode 0x00000080#32 = .nop ∧
  decode 0x0FF0000F#32 = .undefined 0x0FF0000F#32

/-! ## What each instruction's routine does: its result, where it completes, and its frame -/

/-- The routine answers a next state in which only register rd may differ, and rd reads v (x0 reads 0 whatever is written). -/
def CompletesWriting (i : Instr) (rd : RegIx) (v : Word) (s : State) : Prop := ∃ t, exec i s = .next t ∧ OnlyReg rd v s t

/-- R101 to R105, R110, R111: add, sub, and, or, xor, slt and sltu complete in every state with these results and change nothing else.
Sums and differences wrap modulo 2^32 by decision D12 (notes/assumptions/26.md). -/
def Obligations.RegisterArithmeticResults : Prop :=
  ∀ (s : State) (rd rs1 rs2 : RegIx),
    CompletesWriting (.add rd rs1 rs2) rd (BitVec.ofNat 32 (uint (s.reg rs1) + uint (s.reg rs2))) s ∧
    CompletesWriting (.sub rd rs1 rs2) rd (BitVec.ofInt 32 (sint (s.reg rs1) - sint (s.reg rs2))) s ∧
    CompletesWriting (.and rd rs1 rs2) rd (s.reg rs1 &&& s.reg rs2) s ∧
    CompletesWriting (.or rd rs1 rs2) rd (s.reg rs1 ||| s.reg rs2) s ∧
    CompletesWriting (.xor rd rs1 rs2) rd (s.reg rs1 ^^^ s.reg rs2) s ∧
    CompletesWriting (.slt rd rs1 rs2) rd (if sint (s.reg rs1) < sint (s.reg rs2) then 1#32 else 0#32) s ∧
    CompletesWriting (.sltu rd rs1 rs2) rd (if uint (s.reg rs1) < uint (s.reg rs2) then 1#32 else 0#32) s

/-- R106 to R109: sll, srl and sra by x[rs2] modulo 32 (decision D11, notes/assumptions/11.md) complete in every state; the results are
the product and the two floor quotients by the power of two. -/
def Obligations.RegisterShiftResults : Prop :=
  ∀ (s : State) (rd rs1 rs2 : RegIx),
    CompletesWriting (.sll rd rs1 rs2) rd (BitVec.ofNat 32 (uint (s.reg rs1) * 2 ^ (uint (s.reg rs2) % 32))) s ∧
    CompletesWriting (.srl rd rs1 rs2) rd (BitVec.ofNat 32 (uint (s.reg rs1) / 2 ^ (uint (s.reg rs2) % 32))) s ∧
    CompletesWriting (.sra rd rs1 rs2) rd (BitVec.ofInt 32 (sint (s.reg rs1) / 2 ^ (uint (s.reg rs2) % 32))) s

/-- R121 to R129: the nine register-immediate operations complete in every state with these results and change nothing else (the sum
wraps by decision D12, notes/assumptions/26.md). -/
def Obligations.ImmediateResults : Prop :=
  ∀ (s : State) (rd rs1 : RegIx) (imm : Word) (shamt : BitVec 5),
    CompletesWriting (.addi rd rs1 imm) rd (BitVec.ofInt 32 (sint (s.reg rs1) + sint imm)) s ∧
    CompletesWriting (.andi rd rs1 imm) rd (s.reg rs1 &&& imm) s ∧
    CompletesWriting (.ori rd rs1 imm) rd (s.reg rs1 ||| imm) s ∧
    CompletesWriting (.xori rd rs1 imm) rd (s.reg rs1 ^^^ imm) s ∧
    CompletesWriting (.slli rd rs1 shamt) rd (BitVec.ofNat 32 (uint (s.reg rs1) * 2 ^ shamt.toNat)) s ∧
    CompletesWriting (.srli rd rs1 shamt) rd (BitVec.ofNat 32 (uint (s.reg rs1) / 2 ^ shamt.toNat)) s ∧
    CompletesWriting (.srai rd rs1 shamt) rd (BitVec.ofInt 32 (sint (s.reg rs1) / 2 ^ shamt.toNat)) s ∧
    CompletesWriting (.slti rd rs1 imm) rd (if sint (s.reg rs1) < sint imm then 1#32 else 0#32) s ∧
    CompletesWriting (.sltiu rd rs1 imm) rd (if uint (s.reg rs1) < uint imm then 1#32 else 0#32) s

/-- R140, R141: lui and auipc complete in every state; auipc adds to its own address, modulo 2^32 (R141 is the spec's inference). -/
def Obligations.UpperImmediateResults : Prop :=
  ∀ (s : State) (rd : RegIx) (immU : Word),
    CompletesWriting (.lui rd immU) rd (BitVec.ofNat 32 (uint immU * 2 ^ 12)) s ∧
    CompletesWriting (.auipc rd immU) rd (BitVec.ofNat 32 (uint s.pc + uint immU * 2 ^ 12)) s

/-- R151: lw completes at every misaligned address (reported, rd gets 0) and at every aligned one inside the storage (rd gets the
little-endian word), and faults OutOfRange at an aligned address at or above 16384 (decision D8, notes/assumptions/8.md). -/
def Obligations.LoadWordOutcomes : Prop :=
  ∀ (s : State) (rd rs1 : RegIx) (imm : Word),
    let ra := effectiveAddr rs1 imm s
    ra = s.reg rs1 + imm ∧
    (uint ra % 4 ≠ 0 →
      ∃ t, exec (.lw rd rs1 imm) s = .next t ∧ WritesReg rd 0#32 s t ∧ SameControl s t ∧ SameMem s t ∧ t.out = s.out ∧
        t.log = s.log ++ [⟨.misalignedAccess, s.pc, ra⟩]) ∧
    (uint ra % 4 = 0 → uint ra < 16384 →
      CompletesWriting (.lw rd rs1 imm) rd
        (s.mem.get (uint ra + 3) ++ s.mem.get (uint ra + 2) ++ s.mem.get (uint ra + 1) ++ s.mem.get (uint ra)) s) ∧
    (uint ra % 4 = 0 → 16384 ≤ uint ra → exec (.lw rd rs1 imm) s = .fault (.outOfRange ra))

/-- R152, R153: lb and lbu complete at every address inside the storage, aligned or not, with the byte sign- or zero-extended, and fault
OutOfRange above it (decision D8, notes/assumptions/8.md). -/
def Obligations.LoadByteOutcomes : Prop :=
  ∀ (s : State) (rd rs1 : RegIx) (imm : Word),
    let ra := effectiveAddr rs1 imm s
    ra = s.reg rs1 + imm ∧
    (uint ra < 16384 →
      CompletesWriting (.lb rd rs1 imm) rd (BitVec.ofInt 32 (s.mem.get (uint ra)).toInt) s ∧
      CompletesWriting (.lbu rd rs1 imm) rd (BitVec.ofNat 32 (s.mem.get (uint ra)).toNat) s) ∧
    (16384 ≤ uint ra →
      exec (.lb rd rs1 imm) s = .fault (.outOfRange ra) ∧ exec (.lbu rd rs1 imm) s = .fault (.outOfRange ra))

/-- R154: sw completes at every misaligned address (reported, nothing written) and at every aligned one inside the storage (the four
bytes at the computed address become x[rs2]'s, every other byte is unchanged), and faults OutOfRange at an aligned address at or
above 16384 (decision D8, notes/assumptions/8.md). No register is written. -/
def Obligations.StoreWordOutcomes : Prop :=
  ∀ (s : State) (rs1 rs2 : RegIx) (imm : Word),
    let ra := effectiveAddr rs1 imm s
    ra = s.reg rs1 + imm ∧
    (uint ra % 4 ≠ 0 →
      ∃ t, exec (.sw rs1 rs2 imm) s = .next t ∧ SameRegs s t ∧ SameControl s t ∧ SameMem s t ∧ t.out = s.out ∧
        t.log = s.log ++ [⟨.misalignedAccess, s.pc, ra⟩]) ∧
    (uint ra % 4 = 0 → uint ra < 16384 →
      ∃ t, exec (.sw rs1 rs2 imm) s = .next t ∧ SameRegs s t ∧ SameControl s t ∧ SameLogs s t ∧
        SameMemOutside (uint ra) 4 s t ∧ ∀ k < 4, t.mem.get (uint ra + k) = (s.reg rs2).extractLsb' (8 * k) 8) ∧
    (uint ra % 4 = 0 → 16384 ≤ uint ra → exec (.sw rs1 rs2 imm) s = .fault (.outOfRange ra))

/-- R155: sb completes at every address inside the storage, aligned or not: the byte at the computed address becomes the low byte of
x[rs2] and every other byte is unchanged (the lane of the resolved address: C2, decision D3, notes/assumptions/3.md); it faults
OutOfRange above (D8). No register is written. -/
def Obligations.StoreByteOutcomes : Prop :=
  ∀ (s : State) (rs1 rs2 : RegIx) (imm : Word),
    let ra := effectiveAddr rs1 imm s
    storeByteAddr (s.reg rs1) imm = uint ra ∧
    (uint ra < 16384 →
      ∃ t, exec (.sb rs1 rs2 imm) s = .next t ∧ SameRegs s t ∧ SameControl s t ∧ SameLogs s t ∧
        SameMemOutside (storeByteAddr (s.reg rs1) imm) 1 s t ∧
        t.mem.get (storeByteAddr (s.reg rs1) imm) = (s.reg rs2).extractLsb' 0 8) ∧
    (16384 ≤ uint ra → exec (.sb rs1 rs2 imm) s = .fault (.outOfRange ra))

/-- The routine of a branch answers a next state with pc and jt written exactly when the condition holds, and nothing else changed. -/
def CompletesBranching (i : Instr) (cond : Prop) (target : Word) (s : State) : Prop :=
  ∃ t, exec i s = .next t ∧ SameRegs s t ∧ SameMem s t ∧ SameLogs s t ∧ t.stop = s.stop ∧ t.iw = s.iw ∧
    (cond → t.pc = target ∧ t.jt = true) ∧ (¬ cond → t.pc = s.pc ∧ t.jt = s.jt)

/-- R170 to R176: the six branches complete in every state, whatever the operands and the offset. -/
def Obligations.BranchOutcomes : Prop :=
  ∀ (s : State) (rs1 rs2 : RegIx) (imm : Word),
    CompletesBranching (.beq rs1 rs2 imm) (s.reg rs1 = s.reg rs2) (s.pc + imm) s ∧
    CompletesBranching (.bne rs1 rs2 imm) (s.reg rs1 ≠ s.reg rs2) (s.pc + imm) s ∧
    CompletesBranching (.bge rs1 rs2 imm) (sint (s.reg rs2) ≤ sint (s.reg rs1)) (s.pc + imm) s ∧
    CompletesBranching (.bgeu rs1 rs2 imm) (uint (s.reg rs2) ≤ uint (s.reg rs1)) (s.pc + imm) s ∧
    CompletesBranching (.blt rs1 rs2 imm) (sint (s.reg rs1) < sint (s.reg rs2)) (s.pc + imm) s ∧
    CompletesBranching (.bltu rs1 rs2 imm) (uint (s.reg rs1) < uint (s.reg rs2)) (s.pc + imm) s

/-- R180, R182, R184: jal and jalr complete in every state: rd gets pc + 4, pc gets the target from the jump's own address (jal) or the
old x[rs1] plus the immediate, bit 0 kept (jalr), jt is set, and nothing else changes. That the link register is rd is decision D4
(notes/assumptions/4.md), jalr's order and bit 0 are D10 (notes/assumptions/10.md). -/
def Obligations.JumpOutcomes : Prop :=
  ∀ (s : State) (rd rs1 : RegIx) (imm : Word),
    (∃ t, exec (.jal rd imm) s = .next t ∧ WritesReg rd (s.pc + 4#32) s t ∧ t.pc = s.pc + imm ∧ t.jt = true ∧
      t.stop = s.stop ∧ t.iw = s.iw ∧ SameMem s t ∧ SameLogs s t) ∧
    (∃ t, exec (.jalr rd rs1 imm) s = .next t ∧ WritesReg rd (s.pc + 4#32) s t ∧ t.pc = s.reg rs1 + imm ∧ t.jt = true ∧
      t.stop = s.stop ∧ t.iw = s.iw ∧ SameMem s t ∧ SameLogs s t)

/-- R190, R191: nop answers the state itself, and an undefined instruction completes in every state with one report, of its word at pc,
and nothing else changed. That the all-zero word is the no-op is decision D14, the content of a report D17 (notes/assumptions/13.md,
16.md). -/
def Obligations.NopAndUndefinedOutcomes : Prop :=
  ∀ (s : State) (w : Word),
    exec .nop s = .next s ∧
    ∃ t, exec (.undefined w) s = .next t ∧ SameRegs s t ∧ SameControl s t ∧ SameMem s t ∧ t.out = s.out ∧
      t.log = s.log ++ [⟨.undefinedInstruction, s.pc, w⟩]

/-- R192 to R199: ecall by x17: 1 prints x10, 4 prints the word M[x10 / 4] when x10 is inside the storage and faults OutOfRange above it,
10 sets stop, any other number does nothing; no register and no memory is written. The registers and numbers are decisions D4 and D5
(notes/assumptions/4.md, 5.md), the fault D8 (8.md). -/
def Obligations.EcallOutcomes : Prop :=
  ∀ s : State,
    (s.reg 17 = 1#32 →
      ∃ t, exec .ecall s = .next t ∧ SameRegs s t ∧ SameControl s t ∧ SameMem s t ∧ t.log = s.log ∧
        t.out = s.out ++ [.outInt (s.reg 10)]) ∧
    (s.reg 17 = 4#32 → uint (s.reg 10) < 16384 →
      ∃ t, exec .ecall s = .next t ∧ SameRegs s t ∧ SameControl s t ∧ SameMem s t ∧ t.log = s.log ∧
        t.out = s.out ++ [.outMemWord (uint (s.reg 10) / 4) (s.mem.wordAt (uint (s.reg 10) / 4))]) ∧
    (s.reg 17 = 4#32 → 16384 ≤ uint (s.reg 10) → exec .ecall s = .fault (.outOfRange (s.reg 10))) ∧
    (s.reg 17 = 10#32 →
      ∃ t, exec .ecall s = .next t ∧ SameRegs s t ∧ t.pc = s.pc ∧ t.jt = s.jt ∧ t.iw = s.iw ∧ t.stop = true ∧ SameMem s t ∧
        SameLogs s t) ∧
    (s.reg 17 ≠ 1#32 → s.reg 17 ≠ 4#32 → s.reg 17 ≠ 10#32 → exec .ecall s = .next s)

/-! ## The memory primitives (20_memory.md) -/

/-- R42: `MemRead(ra, 4)`: a misaligned address is reported and gives 0, whatever its range; an aligned one gives M[ra / 4] inside the
storage and the fault OutOfRange outside it. -/
def Obligations.WordReadChecksAlignmentFirst : Prop :=
  ∀ (base off : Word) (s : State),
    let ra := resolve base off
    ra = base + off ∧
    (uint ra % 4 ≠ 0 →
      ∃ t, memReadWord ra s = .ok (0#32, t) ∧ t = { s with log := s.log ++ [⟨.misalignedAccess, s.pc, ra⟩] }) ∧
    (uint ra % 4 = 0 → uint ra < params.memBytes → memReadWord ra s = .ok (s.mem.wordAt (uint ra / 4), s)) ∧
    (uint ra % 4 = 0 → params.memBytes ≤ uint ra → memReadWord ra s = .error (.outOfRange ra))

/-- R44: the signed byte reader sign-extends the byte `MemRead(ra, 1)` gives, the unsigned one zero-extends the same byte. -/
def Obligations.ByteReadersExtend : Prop :=
  ∀ (s : State) (rd rs1 : RegIx) (imm : Word) (b : Byte), memReadByte (effectiveAddr rs1 imm s) s = .ok b →
    (∃ t, exec (.lb rd rs1 imm) s = .next t ∧ t.reg rd = if rd = 0 then 0#32 else BitVec.ofInt 32 b.toInt) ∧
    (∃ t, exec (.lbu rd rs1 imm) s = .next t ∧ t.reg rd = if rd = 0 then 0#32 else BitVec.ofNat 32 b.toNat)

/-- R48: a byte store passes x[rs2]'s low byte to `MemWrite(ra, 1, ·)`, a word store passes x[rs2] to `MemWrite(ra, 4, ·)`. -/
def Obligations.StoresPassLowByteOrWord : Prop :=
  ∀ (s t : State) (rs1 rs2 : RegIx) (imm : Word),
    (exec (.sb rs1 rs2 imm) s = .next t ↔
      memWriteByte (s.reg rs1) imm (BitVec.ofNat 8 (uint (s.reg rs2) % 256)) s = .ok t) ∧
    (exec (.sw rs1 rs2 imm) s = .next t ↔ memWriteWord (effectiveAddr rs1 imm s) (s.reg rs2) s = .ok t)

/-- 95_test_vectors.md E2 and E3 and R45: a word written at an aligned address of the storage reads back, as a word and byte by byte, and
every byte outside its four reads as before; a byte written reads back and every other byte reads as before (the lane by decision D3,
notes/assumptions/3.md). -/
def Obligations.WriteThenReadGivesBack : Prop :=
  ∀ s : State,
    (∀ ra v : Word, uint ra % 4 = 0 → uint ra < 16384 →
      ∃ t, memWriteWord ra v s = .ok t ∧ memReadWord ra t = .ok (v, t) ∧
        (∀ k < 4, memReadByte (ra + BitVec.ofNat 32 k) t = .ok (v.extractLsb' (8 * k) 8)) ∧
        ∀ a : Word, ¬ (uint ra ≤ uint a ∧ uint a < uint ra + 4) → memReadByte a t = memReadByte a s) ∧
    (∀ (base off : Word) (b : Byte), uint (base + off) < 16384 →
      ∃ t, memWriteByte base off b s = .ok t ∧ memReadByte (base + off) t = .ok b ∧
        ∀ a : Word, a ≠ base + off → memReadByte a t = memReadByte a s)

/-! ## Fetched words: whole steps by the encoding (files 41, 42, 44, 45) -/

/-- The step completes with only register rd, pc (advanced by 4) and IW changed, and rd reads v. -/
def StepWrites (s : State) (w : Word) (rd : RegIx) (v : Word) : Prop :=
  ∃ t, step s = .next t ∧ WritesReg rd v s t ∧ t.pc = s.pc + 4#32 ∧ t.jt = false ∧ t.stop = s.stop ∧ t.iw = w ∧
    SameMem s t ∧ SameLogs s t

/-- R122, R123, R124, R128: a fetched word of the register-immediate group with funct3 111, 110, 100 or 010 executes as andi, ori, xori
or slti with the sign-extended 12-bit immediate. -/
def Obligations.ImmediateLogicWordsExecute : Prop :=
  ∀ (s : State) (w : Word), Fetches s w → opcodeOf w = 0b0010011#7 →
    let a := s.reg (rs1Of w)
    let imm : Word := (bitField w 20 12).signExtend 32
    (funct3Of w = 0b111#3 → StepWrites s w (rdOf w) (a &&& imm)) ∧
    (funct3Of w = 0b110#3 → StepWrites s w (rdOf w) (a ||| imm)) ∧
    (funct3Of w = 0b100#3 → StepWrites s w (rdOf w) (a ^^^ imm)) ∧
    (funct3Of w = 0b010#3 → StepWrites s w (rdOf w) (if sint a < sint imm then 1#32 else 0#32))

/-- R140: a fetched word with opcode 0110111 executes as lui, whatever its bits 14:12 hold: rd gets bits 31:12 of the word over twelve
zeros. -/
def Obligations.LuiWordsExecute : Prop :=
  ∀ (s : State) (w : Word), Fetches s w → opcodeOf w = 0b0110111#7 →
    StepWrites s w (rdOf w) (bitField w 12 20 ++ 0#12)

/-- The step of a branch: in the execute phase jt is set exactly when the condition holds; after the step pc is the branch's own address
plus the branch immediate, or advanced by 4, and nothing but pc and IW has changed. -/
def StepBranches (s : State) (w : Word) (cond : Prop) : Prop :=
  ∃ u t, exec (decode w) (s.executing w) = .next u ∧ (u.jt = true ↔ cond) ∧ step s = .next t ∧ SameRegs s t ∧ SameMem s t ∧
    SameLogs s t ∧ t.stop = s.stop ∧ t.iw = w ∧ t.jt = false ∧
    (cond →
      t.pc = s.pc + (bitField w 31 1 ++ bitField w 7 1 ++ bitField w 25 6 ++ bitField w 8 4 ++ 0#1 : BitVec 13).signExtend 32) ∧
    (¬ cond → t.pc = s.pc + 4#32)

/-- R170 to R176: a fetched word of the branch group executes as the branch of its funct3, for equal operands and every offset alike; no
target is checked. -/
def Obligations.BranchWordsExecute : Prop :=
  ∀ (s : State) (w : Word), Fetches s w → opcodeOf w = 0b1100011#7 →
    let a := s.reg (rs1Of w)
    let b := s.reg (rs2Of w)
    (funct3Of w = 0b000#3 → StepBranches s w (a = b)) ∧
    (funct3Of w = 0b001#3 → StepBranches s w (a ≠ b)) ∧
    (funct3Of w = 0b101#3 → StepBranches s w (sint b ≤ sint a)) ∧
    (funct3Of w = 0b111#3 → StepBranches s w (uint b ≤ uint a)) ∧
    (funct3Of w = 0b100#3 → StepBranches s w (sint a < sint b)) ∧
    (funct3Of w = 0b110#3 → StepBranches s w (uint a < uint b))

/-- R191, R234: a fetched word R84 calls unrecognised is reported with its address and executes as a no-op: pc advances by 4, no register
(rd included) and no memory is written, and execution continues. -/
def Obligations.UndefinedWordsAreReportedNoOps : Prop :=
  ∀ (s : State) (w : Word), Fetches s w → unrecognised w = true →
    ∃ t, step s = .next t ∧ SameRegs s t ∧ SameMem s t ∧ t.pc = s.pc + 4#32 ∧ t.jt = false ∧ t.stop = s.stop ∧ t.iw = w ∧
      t.out = s.out ∧ t.log = s.log ++ [⟨.undefinedInstruction, s.pc, w⟩]

/-- R194, R235: an ecall whose number is none of the three has no effect and no record: nothing is printed, reported, written or
stopped; the step only advances pc by 4. -/
def Obligations.UnsupportedSyscallIsIgnored : Prop :=
  ∀ (s : State) (w : Word), Fetches s w → decode w = .ecall →
    s.reg params.syscallNumReg ∉ [params.sysPrintInt, params.sysPrintMemWord, params.sysExit] →
    exec .ecall s = .next s ∧
    ∃ t, step s = .next t ∧ SameRegs s t ∧ SameMem s t ∧ SameLogs s t ∧ t.stop = s.stop ∧ t.jt = false ∧ t.iw = w ∧
      t.pc = s.pc + 4#32

/-! ## The machine (files 10, 46, 60, 70) -/

/-- A step runs the decoded instruction (R218, the spec's inference from R210 to R217): in a Running state with an aligned pc whose word
decodes to i, step is exec of i on the state with IW written and jt clear, then the register-zero invariant and the pc update. -/
def Obligations.StepRunsDecodedInstruction : Prop :=
  (∀ (s : State) (w : Word) (i : Instr), Fetches s w → decode w = i →
    step s =
      match exec i (s.executing w) with
      | .next u => .next u.endStep
      | .fault f => .fault f
      | .refused r => .refused r) ∧
  ∀ u : State,
    u.endStep.regs[0] = 0#32 ∧ SameRegs u u.endStep ∧ u.endStep.pc = (if u.jt then u.pc else u.pc + 4#32) ∧
    u.endStep.jt = false ∧ u.endStep.stop = u.stop ∧ u.endStep.iw = u.iw ∧ u.endStep.mem = u.mem ∧ SameLogs u u.endStep

/-- R21, R214: x0 reads 0 whatever its cell holds; x1 to x31 read the value last written, and at reset their reset values; after every
step the cell RF[0] is 0. -/
def Obligations.RegisterZeroAndReads : Prop :=
  (∀ s : State, s.reg 0 = 0#32) ∧
  (∀ (s : State) (i : RegIx), i ≠ 0 → s.reg i = s.regs[i.val]) ∧
  (∀ (s : State) (i j : RegIx) (v : Word), (s.setReg i v).reg j = if j = i ∧ i ≠ 0 then v else s.reg j) ∧
  (∀ i : RegIx, State.reset.reg i =
    if i = params.spReg then params.spInit else if i = params.gpReg then params.gpInit else 0#32) ∧
  ∀ s t : State, step s = .next t → t.regs[0] = 0#32

/-- R27, R217: stop is clear at reset; a step sets it only by executing the system call with `x[SYSCALL_NUM_REG] == SYS_EXIT`; nothing
clears it, for a state with stop set has no step. -/
def Obligations.OnlyExitStops : Prop :=
  State.reset.stop = false ∧
  (∀ s t : State, step s = .next t →
    s.stop = false ∧
    (t.stop = true ↔
      aligned4 s.pc = true ∧ decode s.fetchedWord = .ecall ∧ s.reg params.syscallNumReg = params.sysExit)) ∧
  ∀ s : State, s.stop = true → ∀ t, step s ≠ .next t

/-- R28: the run state is Stopped exactly when stop is set or the boundary condition holds, Running otherwise, Running at reset, and
Stopped is terminal. -/
def Obligations.StoppedIsTerminal : Prop :=
  (∀ s : State, s.runState = .stopped ↔ s.stop = true ∨ boundary s.pc = true) ∧
  (∀ s : State, s.runState = .running ↔ s.stop = false ∧ boundary s.pc = false) ∧
  State.reset.runState = .running ∧
  ∀ s : State, s.runState = .stopped → (∀ t, step s ≠ .next t) ∧ ∀ t, Reaches s t → t = s

/-- R25, R215: at the end of a step whose routine left jt clear pc has advanced by 4 (modulo 2^32); where the routine set jt, jt is
cleared and pc keeps what the routine wrote. An instruction that is no branch and no jump always advances pc by 4. -/
def Obligations.PcAdvancesUnlessJumpTaken : Prop :=
  ∀ (s t u : State) (w : Word), Fetches s w → step s = .next t → exec (decode w) (s.executing w) = .next u →
    (u.jt = true → t.jt = false ∧ t.pc = u.pc) ∧
    (u.jt = false → t.jt = false ∧ t.pc = s.pc + 4#32) ∧
    (u.jt = true ↔ takesJump (decode w) s)

/-- R26: jt is clear at the start of every execute phase; a routine sets it exactly when its branch is taken or it is jal or jalr, and
a routine that leaves it clear leaves pc alone; it is clear after every step; and what it held before a step changes nothing. -/
def Obligations.JumpTakenFlagIsTransient : Prop :=
  (∀ (s : State) (w : Word), (s.executing w).jt = false) ∧
  (∀ (s t : State) (i : Instr), s.jt = false → exec i s = .next t →
    (t.jt = true ↔ takesJump i s) ∧ (t.jt = false → t.pc = s.pc)) ∧
  (∀ s t : State, step s = .next t → t.jt = false) ∧
  ∀ (s : State) (b : Bool), step { s with jt := b } = step s

/-- R213: a routine writes no register but its destination, if it has one; no memory but the word an aligned sw stores to or the byte sb
stores to, at the address the meaning computes, and neither of the two has a destination register; pc and jt exactly when it takes a
jump; stop and the output trace only if it is ecall. The two logs are only appended to. -/
def Obligations.RoutineWritesAtMostOneLocation : Prop :=
  ∀ (i : Instr) (s t : State), exec i s = .next t →
    (∀ r, destReg i ≠ some r → t.reg r = s.reg r) ∧
    (match i with
      | .sw rs1 _ imm =>
          SameRegs s t ∧ (uint (effectiveAddr rs1 imm s) % 4 ≠ 0 → SameMem s t) ∧
            SameMemOutside (4 * wordIndex (effectiveAddr rs1 imm s)) 4 s t
      | .sb rs1 _ imm => SameRegs s t ∧ SameMemOutside (storeByteAddr (s.reg rs1) imm) 1 s t
      | _ => SameMem s t) ∧
    (takesJump i s → t.jt = true) ∧ (¬ takesJump i s → t.pc = s.pc ∧ t.jt = s.jt) ∧ t.iw = s.iw ∧
    (i ≠ .ecall → t.stop = s.stop ∧ t.out = s.out) ∧ s.out <+: t.out ∧ s.log <+: t.log

/-- R233, R234: the report log of a step grows by exactly the reports of the table: MisalignedAccess for a misaligned fetch, lw or sw
(and by nothing else, no byte access and no print among them), UndefinedInstruction for an unrecognised word; the misaligned read
yields 0, the misaligned write is skipped, and execution continues. -/
def Obligations.ReportsExactly : Prop :=
  (∀ s t : State, step s = .next t →
    t.log = s.log ++
      if aligned4 s.pc = true then reportsOf (decode s.fetchedWord) s else [⟨.misalignedAccess, s.pc, s.pc⟩]) ∧
  (∀ (s : State) (w : Word), Fetches s w →
    (∀ rd rs1 imm, decode w = .lw rd rs1 imm → uint (s.reg rs1 + imm) % 4 ≠ 0 →
      ∃ t, step s = .next t ∧ t.reg rd = 0#32 ∧ t.pc = s.pc + 4#32) ∧
    (∀ rs1 rs2 imm, decode w = .sw rs1 rs2 imm → uint (s.reg rs1 + imm) % 4 ≠ 0 →
      ∃ t, step s = .next t ∧ SameMem s t ∧ t.pc = s.pc + 4#32) ∧
    (unrecognised w = true →
      ∃ t, step s = .next t ∧ SameRegs s t ∧ SameMem s t ∧ t.pc = s.pc + 4#32)) ∧
  ∀ s : State, s.running = true → aligned4 s.pc = false → ∃ t, step s = .next t ∧ t.iw = 0#32

/-- R35, R221 (the logs are the spec's own state, decision D17, notes/assumptions/16.md): no step depends on the output trace or the
report log. Two states that differ only in them step alike and append the same events and reports. -/
def Obligations.LogsNeverSteer : Prop :=
  ∀ s s' : State, s' = { s with out := s'.out, log := s'.log } →
    match step s, step s' with
    | .next t, .next t' =>
        t' = { t with out := t'.out, log := t'.log } ∧
        ∃ e r, t.out = s.out ++ e ∧ t'.out = s'.out ++ e ∧ t.log = s.log ++ r ∧ t'.log = s'.log ++ r
    | .fault f, .fault f' => f' = f
    | .refused r, .refused r' => r' = r
    | _, _ => False

/-- The frame of a step over all instructions (R23, R51, the spec's inferences): memory changes only by an aligned sw and by sb, only at the
bytes they store to, and not at all by a misaligned sw; a register changes only when it is the destination of an instruction that writes one; a misaligned fetch changes
neither. -/
def Obligations.StepWritesOnlyItsDestination : Prop :=
  ∀ s t : State, step s = .next t →
    (∀ r, (aligned4 s.pc = true → destReg (decode s.fetchedWord) ≠ some r) → t.reg r = s.reg r) ∧
    (aligned4 s.pc = false → SameMem s t) ∧
    (aligned4 s.pc = true →
      match decode s.fetchedWord with
      | .sw rs1 _ imm =>
          (uint (effectiveAddr rs1 imm s) % 4 ≠ 0 → SameMem s t) ∧ SameMemOutside (uint (effectiveAddr rs1 imm s)) 4 s t
      | .sb rs1 _ imm => SameMemOutside (storeByteAddr (s.reg rs1) imm) 1 s t
      | _ => SameMem s t)

/-- R231, R236, R238 (decision D8, notes/assumptions/8.md): a Running state's step faults exactly when the instruction makes a storage
access at or above 16384, and then with that address; fetch never faults and ShiftRange is never raised. -/
def Obligations.StepFaultsExactly : Prop :=
  ∀ (s : State) (f : Fault), s.running = true →
    (step s = .fault f ↔
      aligned4 s.pc = true ∧ ∃ a, accessFault (decode s.fetchedWord) s = some a ∧ f = .outOfRange a)

/-- R85 (the spec's inference): no encoding traps and none is without a meaning: neither exec nor step ever refuses. -/
def Obligations.NothingIsRefused : Prop :=
  (∀ (i : Instr) (s : State) (r : Refusal), exec i s ≠ .refused r) ∧ ∀ (s : State) (r : Refusal), step s ≠ .refused r

/-- Every step keeps the invariant: memory in canonical form inside the storage (the canonical form is the model's choice,
notes/assumptions/23.md), jt clear (R215), RF[0] zero (R214), only recorded conditions in the report log (R231; decision D17,
notes/assumptions/16.md). -/
def Obligations.StepKeepsInvariant : Prop := ∀ s t : State, s.Inv → step s = .next t → t.Inv

/-- The invariant holds at reset, and after every admitted launch (R256, decision D20, notes/assumptions/18.md); the canonical form of
memory in it is the model's choice (notes/assumptions/23.md). -/
def Obligations.ResetAndLaunchMeetInvariant : Prop :=
  State.reset.Inv ∧ ∀ (code data : List Byte) (s : State), State.launch code data = some s → s.Inv

/-- R36, R250, R253: the reset state. That x2 and x3 are the registers preset is decision D4; the logs and IW are D17 and D19; unlisted
memory reads 0 by D16 (notes/assumptions/4.md, 15.md, 16.md, 17.md). -/
def Obligations.ResetState : Prop :=
  State.reset.reg 2 = 0x00003FFC#32 ∧ State.reset.reg 3 = 0x00001800#32 ∧
  (∀ r : RegIx, r ≠ 2 → r ≠ 3 → State.reset.reg r = 0#32) ∧ State.reset.regs[0] = 0#32 ∧
  State.reset.pc = 0#32 ∧ State.reset.jt = false ∧ State.reset.stop = false ∧ State.reset.runState = .running ∧
  State.reset.iw = 0#32 ∧ (∀ a, State.reset.mem.get a = 0#8) ∧ State.reset.out = [] ∧ State.reset.log = []

/-- R251: the first step fetches at pc = PC_INIT = 0, where the code image is loaded: it fetches the image's first word. -/
def Obligations.FirstFetchReadsCodeImage : Prop :=
  ∀ (code data : List Byte) (s : State), State.launch code data = some s →
    s.pc = params.pcInit ∧ s.pc = 0#32 ∧ s.pc = params.codeBase ∧
    ∀ b0 b1 b2 b3 rest, code = b0 :: b1 :: b2 :: b3 :: rest → fetch s = .ok (s.setIw (b3 ++ b2 ++ b1 ++ b0))

/-- R254, R255, R256: an admitted launch has the code image's bytes at 0, the data image's at 0x2000, 0 elsewhere, and every other piece
of the reset state; a launch with an image too long or not a whole number of words has no run (decisions D16, D20;
notes/assumptions/15.md, 18.md). -/
def Obligations.LaunchPlacesImages : Prop :=
  ∀ code data : List Byte,
    (code.length % 4 = 0 → code.length ≤ 8192 → data.length % 4 = 0 → data.length ≤ 8192 →
      ∃ s, State.launch code data = some s ∧ { s with mem := State.reset.mem } = State.reset ∧
        (∀ k, k < code.length → s.mem.get k = code.getD k 0#8) ∧
        (∀ k, k < data.length → s.mem.get (8192 + k) = data.getD k 0#8) ∧
        ∀ a, code.length ≤ a → (a < 8192 ∨ 8192 + data.length ≤ a) → s.mem.get a = 0#8) ∧
    (code.length % 4 ≠ 0 ∨ 8192 < code.length ∨ data.length % 4 ≠ 0 ∨ 8192 < data.length → State.launch code data = none)

/-- R57, R259 (the spec's inference): a word stored by sw is the word every later fetch at that address reads while memory is not
written again, the very next step's fetch included. -/
def Obligations.StoredWordIsFetched : Prop :=
  ∀ (s t u : State) (rs1 rs2 : RegIx) (imm : Word), aligned4 s.pc = true → decode s.fetchedWord = .sw rs1 rs2 imm →
    step s = .next t → u.mem = t.mem → u.running = true → u.pc = effectiveAddr rs1 imm s → aligned4 u.pc = true →
    fetch u = .ok (u.setIw (s.reg rs2))

/-- R188, R210 (decision D9, notes/assumptions/9.md): a Running state with a misaligned pc reports MisalignedAccess(pc, pc), fetches the
word 0, executes the no-op, and advances pc by 4, which stays misaligned. -/
def Obligations.MisalignedFetchIsReportedNoOp : Prop :=
  ∀ s : State, s.running = true → uint s.pc % 4 ≠ 0 →
    ∃ t, step s = .next t ∧ SameRegs s t ∧ SameMem s t ∧ t.pc = s.pc + 4#32 ∧ uint t.pc % 4 ≠ 0 ∧ t.jt = false ∧
      t.stop = s.stop ∧ t.iw = 0#32 ∧ t.out = s.out ∧ t.log = s.log ++ [⟨.misalignedAccess, s.pc, s.pc⟩]

/-- R189, R216 (decision D7, notes/assumptions/7.md): a pc at or above 0x2000, however it was reached, has no step, which step
answers with the fault stopped (the model's choice, notes/assumptions/19.md); below it, with stop clear, a state is Running and step
answers otherwise. Under `STOP_COMPARE = eq` only 0x2000 itself is the boundary. -/
def Obligations.BoundaryEndsRun : Prop :=
  (∀ s : State, 0x2000 ≤ uint s.pc → step s = .fault .stopped) ∧
  (∀ s : State, s.stop = false → uint s.pc < 0x2000 → s.running = true ∧ step s ≠ .fault .stopped) ∧
  ∀ pc : Word, boundaryWith { params with stopCompare := .eq } pc = true ↔ uint pc = 0x2000

/-- Placing an instruction word in a Running state with an aligned pc makes it the word the next step decodes, and changes only the four
bytes at pc (how a word comes to be fetched first: the model's choice, notes/assumptions/18.md, 29.md). -/
def Obligations.PlacedWordIsFetched : Prop :=
  ∀ (s : State) (nbits w : Nat), s.running = true → aligned4 s.pc = true →
    Fetches (s.withFetchWord nbits w) (BitVec.ofNat 32 (w % 2 ^ nbits)) ∧ SameRegs s (s.withFetchWord nbits w) ∧
    SameControl s (s.withFetchWord nbits w) ∧ SameLogs s (s.withFetchWord nbits w) ∧
    SameMemOutside (uint s.pc) 4 s (s.withFetchWord nbits w)

/-! ## The named alternatives (00_scope.md R6) and the assembler (30_encoding.md R87) -/

/-- R106's alternative `SHIFT_REG_POLICY = fault_ge32` (decision D11, notes/assumptions/11.md): an amount of 32 or more raises ShiftRange
(carrying the whole of x[rs2]: the model's choice, notes/assumptions/31.md), any other shifts as this machine does. -/
def Obligations.ShiftPolicyAlternative : Prop :=
  ∀ (s : State) (rd rs1 rs2 : RegIx) (op : Word → Nat → Word),
    (32 ≤ uint (s.reg rs2) →
      registerShiftWith { params with shiftRegPolicy := .faultGe32 } op rd rs1 rs2 s = .fault (.shiftRange (s.reg rs2))) ∧
    (uint (s.reg rs2) < 32 →
      registerShiftWith { params with shiftRegPolicy := .faultGe32 } op rd rs1 rs2 s =
        .next (s.setReg rd (op (s.reg rs1) (uint (s.reg rs2)))))

/-- R183, R186 (decision D10, notes/assumptions/10.md): clearing bit 0 of the target changes only pc; writing the link first changes the
target only when rs1 = rd and rd is not x0. -/
def Obligations.JalrAlternatives : Prop :=
  ∀ (s : State) (rd rs1 : RegIx) (imm : Word),
    ∃ u, exec (.jalr rd rs1 imm) s = .next u ∧
      (∃ t, jalrWith { params with jalrClearBit0 := true } rd rs1 imm s = .next t ∧ t = { u with pc := t.pc } ∧
        uint t.pc = 2 * (uint u.pc / 2)) ∧
      (∃ t, jalrWith { params with jalrOrder := .linkFirst } rd rs1 imm s = .next t ∧ t = { u with pc := t.pc } ∧
        t.pc = if rs1 = rd ∧ rd ≠ 0 then s.pc + 4#32 + imm else s.reg rs1 + imm)

/-- R47's alternative `SB_LANE_SOURCE = offset` (C2, decision D3, notes/assumptions/3.md): the lane is the offset modulo 4 in the word
the resolved address names; the two readings agree whenever the base is a multiple of 4. -/
def Obligations.StoreLaneAlternative : Prop :=
  ∀ (s : State) (rs1 rs2 : RegIx) (imm : Word),
    (uint (s.reg rs1 + imm) < 16384 →
      ∃ t, storeByteWith { params with storeByteLane := .offset } rs1 rs2 imm s = .next t ∧ SameRegs s t ∧ SameControl s t ∧
        SameLogs s t ∧
        t.mem.get (4 * (uint (s.reg rs1 + imm) / 4) + uint imm % 4) = (s.reg rs2).extractLsb' 0 8 ∧
        SameMemOutside (4 * (uint (s.reg rs1 + imm) / 4) + uint imm % 4) 1 s t) ∧
    (uint (s.reg rs1) % 4 = 0 →
      storeByteWith { params with storeByteLane := .offset } rs1 rs2 imm s = exec (.sb rs1 rs2 imm) s)

/-- R87 (general knowledge in the spec, notes/assumptions/28.md): the expansions of li and la are well-formed instructions, and their
routines in order leave the constant, or the address that far from the first instruction, in rd and change nothing else. -/
def Obligations.LiAndLaLoadTheirValue : Prop :=
  ∀ (s : State) (rd : RegIx) (imm : Word),
    (∀ i ∈ Pseudo.expand (.li rd imm) ++ Pseudo.expand (.la rd imm), i.wf = true) ∧
    (∃ t, execAll (Pseudo.expand (.li rd imm)) s = .next t ∧ OnlyReg rd imm s t) ∧
    ∃ t, execAll (Pseudo.expand (.la rd imm)) s = .next t ∧ OnlyReg rd (s.pc + imm) s t
end

