-- ==== Sys2Proof/Laws/Memory.lean ====
section
/-! SUPPORT. The laws of the memory: a read after a write to the same address gives the value written, a write leaves every other
address alone, every operation keeps the canonical form, and the address arithmetic as arithmetic on naturals. -/

namespace Sys2Proof.Machine

/-! ## Bytes -/

theorem Memory.get_erase (m : Memory) (a b : Nat) :
    (m.erase a).get b = if b = a then Memory.unlisted b else m.get b := by
  induction m with
  | nil => simp [Memory.erase, Memory.get]
  | cons c rest ih =>
    obtain ⟨x, v⟩ := c
    by_cases hx : x = a
    · subst hx
      by_cases hb : b = x
      · subst hb; simp [Memory.erase, ih]
      · simp [Memory.erase, Memory.get, ih, hb, Ne.symm hb]
    · by_cases hb : b = a
      · subst hb; simp [Memory.erase, Memory.get, hx, ih]
      · simp [Memory.erase, Memory.get, hx, ih, hb]

theorem Memory.get_insert (m : Memory) (a : Nat) (v : Byte) (b : Nat) :
    (m.insert a v).get b = if b = a then v else m.get b := by
  induction m with
  | nil =>
    by_cases hb : b = a
    · simp [Memory.insert, Memory.get, hb]
    · simp [Memory.insert, Memory.get, hb, Ne.symm hb]
  | cons c rest ih =>
    obtain ⟨x, w⟩ := c
    simp only [Memory.insert]
    split
    · by_cases hb : b = a
      · simp [Memory.get, hb]
      · simp [Memory.get, hb, Ne.symm hb]
    · split
      · rename_i hax
        subst hax
        by_cases hb : b = a
        · simp [Memory.get, hb]
        · simp [Memory.get, hb, Ne.symm hb]
      · rename_i hax
        by_cases hb : b = a
        · subst hb; simp [Memory.get, ih, Ne.symm hax]
        · simp [Memory.get, ih, hb]

/-- A read after a write of one byte. -/
theorem Memory.get_set (m : Memory) (a : Nat) (v : Byte) (b : Nat) :
    (m.set a v).get b = if b = a then v else m.get b := by
  unfold Memory.set
  split
  · rename_i h
    rw [Memory.get_erase]
    split
    · rename_i hb; rw [hb, h]
    · rfl
  · exact Memory.get_insert m a v b

@[simp] theorem Memory.get_set_same (m : Memory) (a : Nat) (v : Byte) : (m.set a v).get a = v := by
  simp [Memory.get_set]

theorem Memory.get_set_other (m : Memory) {a b : Nat} (v : Byte) (h : b ≠ a) : (m.set a v).get b = m.get b := by
  simp [Memory.get_set, h]

/-! ## The canonical form -/

theorem Memory.mem_erase {m : Memory} {a : Nat} {c : Host.Cell} (h : c ∈ m.erase a) : c ∈ m := by
  induction m with
  | nil => exact h
  | cons d rest ih =>
    obtain ⟨x, w⟩ := d
    simp only [Memory.erase] at h
    split at h
    · exact List.mem_cons_of_mem _ (ih h)
    · rcases List.mem_cons.mp h with h | h
      · exact h ▸ List.mem_cons_self
      · exact List.mem_cons_of_mem _ (ih h)

theorem Memory.mem_insert {m : Memory} {a : Nat} {v : Byte} {c : Host.Cell} (h : c ∈ m.insert a v) : c = (a, v) ∨ c ∈ m := by
  induction m with
  | nil => exact Or.inl (List.mem_singleton.mp h)
  | cons d rest ih =>
    obtain ⟨x, w⟩ := d
    simp only [Memory.insert] at h
    split at h
    · exact List.mem_cons.mp h
    · split at h
      · rcases List.mem_cons.mp h with h | h
        · exact Or.inl h
        · exact Or.inr (List.mem_cons_of_mem _ h)
      · rcases List.mem_cons.mp h with h | h
        · exact Or.inr (h ▸ List.mem_cons_self)
        · exact (ih h).imp_right (List.mem_cons_of_mem _)

theorem Memory.erase_rising {m : Memory} (a : Nat) (h : m.Pairwise (fun x y => x.1 < y.1)) :
    (m.erase a).Pairwise (fun x y => x.1 < y.1) := by
  induction m with
  | nil => exact h
  | cons d rest ih =>
    obtain ⟨x, w⟩ := d
    have h' := List.pairwise_cons.mp h
    simp only [Memory.erase]
    split
    · exact ih h'.2
    · exact List.pairwise_cons.mpr ⟨fun c hc => h'.1 c (Memory.mem_erase hc), ih h'.2⟩

theorem Memory.insert_rising {m : Memory} (a : Nat) (v : Byte) (h : m.Pairwise (fun x y => x.1 < y.1)) :
    (m.insert a v).Pairwise (fun x y => x.1 < y.1) := by
  induction m with
  | nil => simp [Memory.insert]
  | cons d rest ih =>
    obtain ⟨x, w⟩ := d
    have h' := List.pairwise_cons.mp h
    simp only [Memory.insert]
    split
    · rename_i hax
      refine List.pairwise_cons.mpr ⟨fun c hc => ?_, h⟩
      rcases List.mem_cons.mp hc with hc | hc
      · rw [hc]; exact hax
      · exact Nat.lt_trans hax (h'.1 c hc)
    · split
      · rename_i hax
        subst hax
        exact List.pairwise_cons.mpr ⟨fun c hc => h'.1 c hc, h'.2⟩
      · rename_i h1 h2
        refine List.pairwise_cons.mpr ⟨fun c hc => ?_, ih h'.2⟩
        rcases Memory.mem_insert hc with hc | hc
        · rw [hc]; show x < a; omega
        · exact h'.1 c hc

/-- Writing a byte of the storage keeps the canonical form. -/
theorem Memory.set_wf {m : Memory} {a : Nat} (v : Byte) (h : m.wf) (ha : a < params.memBytes) : (m.set a v).wf := by
  unfold Memory.set
  split
  · exact ⟨Memory.erase_rising a h.1, fun c hc => h.2 c (Memory.mem_erase hc)⟩
  · rename_i hv
    refine ⟨Memory.insert_rising a v h.1, fun c hc => ?_⟩
    rcases Memory.mem_insert hc with hc | hc
    · rw [hc]; exact ⟨ha, hv⟩
    · exact h.2 c hc

theorem Memory.nil_wf : Memory.wf [] := ⟨List.Pairwise.nil, fun _ h => absurd h List.not_mem_nil⟩

/-! ## Words -/

/-- A byte read after a word store (R45). -/
theorem Memory.get_setWordAt (m : Memory) (i : Nat) (v : Word) (b : Nat) :
    (m.setWordAt i v).get b =
      if b = 4 * i then v.extractLsb' 0 8
      else if b = 4 * i + 1 then v.extractLsb' 8 8
      else if b = 4 * i + 2 then v.extractLsb' 16 8
      else if b = 4 * i + 3 then v.extractLsb' 24 8
      else m.get b := by
  simp only [Memory.setWordAt, Memory.get_set]
  split_ifs <;> first | rfl | omega

/-- A word is the concatenation of its four byte lanes (R45). -/
theorem word_lanes (v : Word) :
    (v.extractLsb' 24 8 ++ v.extractLsb' 16 8 ++ v.extractLsb' 8 8 ++ v.extractLsb' 0 8 : Word) = v := by
  apply BitVec.eq_of_getLsbD_eq
  intro i hi
  simp only [BitVec.getLsbD_append, BitVec.getLsbD_extractLsb']
  interval_cases i <;> simp

@[simp] theorem Memory.wordAt_setWordAt_same (m : Memory) (i : Nat) (v : Word) : (m.setWordAt i v).wordAt i = v := by
  simp only [Memory.wordAt, Memory.get_setWordAt]
  simp [word_lanes]

theorem Memory.wordAt_setWordAt_other (m : Memory) {i j : Nat} (v : Word) (h : j ≠ i) :
    (m.setWordAt i v).wordAt j = m.wordAt j := by
  simp only [Memory.wordAt, Memory.get_setWordAt]
  have : ∀ k < 4, ∀ l < 4, 4 * j + k ≠ 4 * i + l := by intros; omega
  have h0 : ∀ l < 4, 4 * j ≠ 4 * i + l := by intros; omega
  have h1 : ∀ k < 4, 4 * j + k ≠ 4 * i := by intros; omega
  simp [this, h0, h1, h]

/-- A word read depends on its four bytes alone. -/
theorem Memory.wordAt_congr {m n : Memory} {i : Nat} (h : ∀ a, 4 * i ≤ a ∧ a < 4 * i + 4 → n.get a = m.get a) :
    n.wordAt i = m.wordAt i := by
  simp only [Memory.wordAt]
  rw [h _ ⟨by omega, by omega⟩, h _ ⟨by omega, by omega⟩, h _ ⟨by omega, by omega⟩, h (4 * i) ⟨by omega, by omega⟩]

/-- Writing a word of the storage keeps the canonical form. -/
theorem Memory.setWordAt_wf {m : Memory} {i : Nat} (v : Word) (h : m.wf) (hi : i < params.memWords) : (m.setWordAt i v).wf := by
  have hb : 4 * i + 3 < params.memBytes := by simp only [Config.memBytes]; omega
  exact Memory.set_wf _ (Memory.set_wf _ (Memory.set_wf _ (Memory.set_wf _ h (by omega)) (by omega)) (by omega)) hb

/-- Storing bytes of the storage keeps the canonical form. -/
theorem Memory.setBytes_wf {m : Memory} (bs : List Byte) (a : Nat) (h : m.wf) (ha : a + bs.length ≤ params.memBytes) :
    (m.setBytes a bs).wf := by
  induction bs generalizing m a with
  | nil => exact h
  | cons b bs ih =>
    simp only [List.length_cons] at ha
    exact ih (a + 1) (Memory.set_wf b h (by omega)) (by omega)

/-- A byte read after storing a list of bytes (R255). -/
theorem Memory.get_setBytes (m : Memory) (bs : List Byte) (a b : Nat) :
    (m.setBytes a bs).get b = if a ≤ b ∧ b < a + bs.length then bs.getD (b - a) 0#8 else m.get b := by
  induction bs generalizing m a with
  | nil => simp [Memory.setBytes]
  | cons x xs ih =>
    simp only [Memory.setBytes, ih, Memory.get_set, List.length_cons]
    by_cases h1 : b = a
    · subst h1; simp
    · by_cases h2 : a + 1 ≤ b ∧ b < a + 1 + xs.length
      · obtain ⟨k, rfl⟩ : ∃ k, b = a + 1 + k := ⟨b - (a + 1), by omega⟩
        have e1 : a + 1 + k - a = k + 1 := by omega
        have e2 : a + 1 + k - (a + 1) = k := by omega
        have e3 : a ≤ a + 1 + k ∧ a + 1 + k < a + (xs.length + 1) := by omega
        simp [h2, e1, e2, e3]
      · have e3 : ¬ (a ≤ b ∧ b < a + (xs.length + 1)) := by omega
        rw [if_neg h2, if_neg e3, if_neg h1]

/-! ## Addresses -/

@[simp] theorem memBytes_eq : params.memBytes = 16384 := rfl

theorem aligned4_iff (a : Word) : aligned4 a = true ↔ a.toNat % 4 = 0 := by
  simp only [aligned4, beq_iff_eq]
  rw [← BitVec.toNat_inj]
  simp [BitVec.extractLsb'_toNat]

theorem inRange_iff (a : Word) : inRange a = true ↔ a.toNat < 16384 := by
  exact decide_eq_true_iff

theorem wordIndex_eq (a : Word) : wordIndex a = a.toNat / 4 := by
  simp [wordIndex, Nat.shiftRight_eq_div_pow]

theorem lane_eq (a : Word) : (a.extractLsb' 0 2).toNat = a.toNat % 4 := by
  simp [BitVec.extractLsb'_toNat]

/-- Word index and lane name the byte address (R40). -/
theorem byteAddr_eq (a : Word) : 4 * wordIndex a + (a.extractLsb' 0 2).toNat = a.toNat := by
  rw [wordIndex_eq, lane_eq]; omega

theorem wordIndex_lt {a : Word} (h : inRange a = true) : wordIndex a < params.memWords := by
  rw [inRange_iff] at h
  rw [wordIndex_eq]
  show a.toNat / 4 < 4096
  omega

end Sys2Proof.Machine
end

