-- ==== Sys2Proof/Laws/State.lean ====
section
/-! SUPPORT. One lemma per field per update of State, true by rfl, and what each update does to a register read, so that no later proof
unfolds a record update. -/

namespace Sys2Proof.Machine

/-! ## setReg -/

theorem State.setReg_regs (s : State) (r : RegIx) (v : Word) : (s.setReg r v).regs = s.regs.set r.val v r.isLt := rfl
@[simp] theorem State.setReg_pc (s : State) (r : RegIx) (v : Word) : (s.setReg r v).pc = s.pc := rfl
@[simp] theorem State.setReg_jt (s : State) (r : RegIx) (v : Word) : (s.setReg r v).jt = s.jt := rfl
@[simp] theorem State.setReg_stop (s : State) (r : RegIx) (v : Word) : (s.setReg r v).stop = s.stop := rfl
@[simp] theorem State.setReg_iw (s : State) (r : RegIx) (v : Word) : (s.setReg r v).iw = s.iw := rfl
@[simp] theorem State.setReg_mem (s : State) (r : RegIx) (v : Word) : (s.setReg r v).mem = s.mem := rfl
@[simp] theorem State.setReg_out (s : State) (r : RegIx) (v : Word) : (s.setReg r v).out = s.out := rfl
@[simp] theorem State.setReg_log (s : State) (r : RegIx) (v : Word) : (s.setReg r v).log = s.log := rfl

/-! ## setPc -/

@[simp] theorem State.setPc_regs (s : State) (t : Word) : (s.setPc t).regs = s.regs := rfl
@[simp] theorem State.setPc_pc (s : State) (t : Word) : (s.setPc t).pc = t := rfl
@[simp] theorem State.setPc_jt (s : State) (t : Word) : (s.setPc t).jt = s.jt := rfl
@[simp] theorem State.setPc_stop (s : State) (t : Word) : (s.setPc t).stop = s.stop := rfl
@[simp] theorem State.setPc_iw (s : State) (t : Word) : (s.setPc t).iw = s.iw := rfl
@[simp] theorem State.setPc_mem (s : State) (t : Word) : (s.setPc t).mem = s.mem := rfl
@[simp] theorem State.setPc_out (s : State) (t : Word) : (s.setPc t).out = s.out := rfl
@[simp] theorem State.setPc_log (s : State) (t : Word) : (s.setPc t).log = s.log := rfl

/-! ## setMem -/

@[simp] theorem State.setMem_regs (s : State) (m : Memory) : (s.setMem m).regs = s.regs := rfl
@[simp] theorem State.setMem_pc (s : State) (m : Memory) : (s.setMem m).pc = s.pc := rfl
@[simp] theorem State.setMem_jt (s : State) (m : Memory) : (s.setMem m).jt = s.jt := rfl
@[simp] theorem State.setMem_stop (s : State) (m : Memory) : (s.setMem m).stop = s.stop := rfl
@[simp] theorem State.setMem_iw (s : State) (m : Memory) : (s.setMem m).iw = s.iw := rfl
@[simp] theorem State.setMem_mem (s : State) (m : Memory) : (s.setMem m).mem = m := rfl
@[simp] theorem State.setMem_out (s : State) (m : Memory) : (s.setMem m).out = s.out := rfl
@[simp] theorem State.setMem_log (s : State) (m : Memory) : (s.setMem m).log = s.log := rfl

/-! ## setIw -/

@[simp] theorem State.setIw_regs (s : State) (w : Word) : (s.setIw w).regs = s.regs := rfl
@[simp] theorem State.setIw_pc (s : State) (w : Word) : (s.setIw w).pc = s.pc := rfl
@[simp] theorem State.setIw_jt (s : State) (w : Word) : (s.setIw w).jt = s.jt := rfl
@[simp] theorem State.setIw_stop (s : State) (w : Word) : (s.setIw w).stop = s.stop := rfl
@[simp] theorem State.setIw_iw (s : State) (w : Word) : (s.setIw w).iw = w := rfl
@[simp] theorem State.setIw_mem (s : State) (w : Word) : (s.setIw w).mem = s.mem := rfl
@[simp] theorem State.setIw_out (s : State) (w : Word) : (s.setIw w).out = s.out := rfl
@[simp] theorem State.setIw_log (s : State) (w : Word) : (s.setIw w).log = s.log := rfl

/-! ## report -/

@[simp] theorem State.report_regs (s : State) (k : Condition) (x : Word) : (s.report k x).regs = s.regs := rfl
@[simp] theorem State.report_pc (s : State) (k : Condition) (x : Word) : (s.report k x).pc = s.pc := rfl
@[simp] theorem State.report_jt (s : State) (k : Condition) (x : Word) : (s.report k x).jt = s.jt := rfl
@[simp] theorem State.report_stop (s : State) (k : Condition) (x : Word) : (s.report k x).stop = s.stop := rfl
@[simp] theorem State.report_iw (s : State) (k : Condition) (x : Word) : (s.report k x).iw = s.iw := rfl
@[simp] theorem State.report_mem (s : State) (k : Condition) (x : Word) : (s.report k x).mem = s.mem := rfl
@[simp] theorem State.report_out (s : State) (k : Condition) (x : Word) : (s.report k x).out = s.out := rfl
@[simp] theorem State.report_log (s : State) (k : Condition) (x : Word) : (s.report k x).log = s.log ++ [⟨k, s.pc, x⟩] := rfl

/-! ## emit -/

@[simp] theorem State.emit_regs (s : State) (e : OutEvent) : (s.emit e).regs = s.regs := rfl
@[simp] theorem State.emit_pc (s : State) (e : OutEvent) : (s.emit e).pc = s.pc := rfl
@[simp] theorem State.emit_jt (s : State) (e : OutEvent) : (s.emit e).jt = s.jt := rfl
@[simp] theorem State.emit_stop (s : State) (e : OutEvent) : (s.emit e).stop = s.stop := rfl
@[simp] theorem State.emit_iw (s : State) (e : OutEvent) : (s.emit e).iw = s.iw := rfl
@[simp] theorem State.emit_mem (s : State) (e : OutEvent) : (s.emit e).mem = s.mem := rfl
@[simp] theorem State.emit_out (s : State) (e : OutEvent) : (s.emit e).out = s.out ++ [e] := rfl
@[simp] theorem State.emit_log (s : State) (e : OutEvent) : (s.emit e).log = s.log := rfl

/-! ## setJt -/

@[simp] theorem State.setJt_regs (s : State) : (s.setJt).regs = s.regs := rfl
@[simp] theorem State.setJt_pc (s : State) : (s.setJt).pc = s.pc := rfl
@[simp] theorem State.setJt_jt (s : State) : (s.setJt).jt = true := rfl
@[simp] theorem State.setJt_stop (s : State) : (s.setJt).stop = s.stop := rfl
@[simp] theorem State.setJt_iw (s : State) : (s.setJt).iw = s.iw := rfl
@[simp] theorem State.setJt_mem (s : State) : (s.setJt).mem = s.mem := rfl
@[simp] theorem State.setJt_out (s : State) : (s.setJt).out = s.out := rfl
@[simp] theorem State.setJt_log (s : State) : (s.setJt).log = s.log := rfl

/-! ## clearJt -/

@[simp] theorem State.clearJt_regs (s : State) : (s.clearJt).regs = s.regs := rfl
@[simp] theorem State.clearJt_pc (s : State) : (s.clearJt).pc = s.pc := rfl
@[simp] theorem State.clearJt_jt (s : State) : (s.clearJt).jt = false := rfl
@[simp] theorem State.clearJt_stop (s : State) : (s.clearJt).stop = s.stop := rfl
@[simp] theorem State.clearJt_iw (s : State) : (s.clearJt).iw = s.iw := rfl
@[simp] theorem State.clearJt_mem (s : State) : (s.clearJt).mem = s.mem := rfl
@[simp] theorem State.clearJt_out (s : State) : (s.clearJt).out = s.out := rfl
@[simp] theorem State.clearJt_log (s : State) : (s.clearJt).log = s.log := rfl

/-! ## setStop -/

@[simp] theorem State.setStop_regs (s : State) : (s.setStop).regs = s.regs := rfl
@[simp] theorem State.setStop_pc (s : State) : (s.setStop).pc = s.pc := rfl
@[simp] theorem State.setStop_jt (s : State) : (s.setStop).jt = s.jt := rfl
@[simp] theorem State.setStop_stop (s : State) : (s.setStop).stop = true := rfl
@[simp] theorem State.setStop_iw (s : State) : (s.setStop).iw = s.iw := rfl
@[simp] theorem State.setStop_mem (s : State) : (s.setStop).mem = s.mem := rfl
@[simp] theorem State.setStop_out (s : State) : (s.setStop).out = s.out := rfl
@[simp] theorem State.setStop_log (s : State) : (s.setStop).log = s.log := rfl

/-! ## jumpTo -/

@[simp] theorem State.jumpTo_regs (s : State) (t : Word) : (s.jumpTo t).regs = s.regs := rfl
@[simp] theorem State.jumpTo_pc (s : State) (t : Word) : (s.jumpTo t).pc = t := rfl
@[simp] theorem State.jumpTo_jt (s : State) (t : Word) : (s.jumpTo t).jt = true := rfl
@[simp] theorem State.jumpTo_stop (s : State) (t : Word) : (s.jumpTo t).stop = s.stop := rfl
@[simp] theorem State.jumpTo_iw (s : State) (t : Word) : (s.jumpTo t).iw = s.iw := rfl
@[simp] theorem State.jumpTo_mem (s : State) (t : Word) : (s.jumpTo t).mem = s.mem := rfl
@[simp] theorem State.jumpTo_out (s : State) (t : Word) : (s.jumpTo t).out = s.out := rfl
@[simp] theorem State.jumpTo_log (s : State) (t : Word) : (s.jumpTo t).log = s.log := rfl

/-! ## forceZero -/

theorem State.forceZero_regs (s : State) : (s.forceZero).regs = s.regs.set 0 0#32 := rfl
@[simp] theorem State.forceZero_pc (s : State) : (s.forceZero).pc = s.pc := rfl
@[simp] theorem State.forceZero_jt (s : State) : (s.forceZero).jt = s.jt := rfl
@[simp] theorem State.forceZero_stop (s : State) : (s.forceZero).stop = s.stop := rfl
@[simp] theorem State.forceZero_iw (s : State) : (s.forceZero).iw = s.iw := rfl
@[simp] theorem State.forceZero_mem (s : State) : (s.forceZero).mem = s.mem := rfl
@[simp] theorem State.forceZero_out (s : State) : (s.forceZero).out = s.out := rfl
@[simp] theorem State.forceZero_log (s : State) : (s.forceZero).log = s.log := rfl

/-! ## Register reads after an update -/

/-- A register read depends on the register file alone. -/
theorem State.reg_congr {s t : State} (h : t.regs = s.regs) (r : RegIx) : t.reg r = s.reg r := by
  simp only [State.reg, h]

@[simp] theorem State.reg_zero (s : State) : s.reg 0 = 0#32 := rfl

/-- A read after a write: the value written, but for x0 (R21, R22). -/
theorem State.reg_setReg (s : State) (i : RegIx) (v : Word) (r : RegIx) :
    (s.setReg i v).reg r = if r = i ∧ r ≠ 0 then v else s.reg r := by
  unfold State.reg State.setReg
  by_cases h0 : r = 0
  · simp [h0]
  · by_cases hi : r = i
    · subst hi; simp [h0]
    · have : i.val ≠ r.val := fun h => hi (Fin.ext h.symm)
      simp [h0, hi, this]

@[simp] theorem State.setPc_reg (s : State) (t : Word) (r : RegIx) : (s.setPc t).reg r = s.reg r := rfl
@[simp] theorem State.report_reg (s : State) (k : Condition) (x : Word) (r : RegIx) : (s.report k x).reg r = s.reg r := rfl
@[simp] theorem State.emit_reg (s : State) (e : OutEvent) (r : RegIx) : (s.emit e).reg r = s.reg r := rfl
@[simp] theorem State.setJt_reg (s : State) (r : RegIx) : s.setJt.reg r = s.reg r := rfl
@[simp] theorem State.clearJt_reg (s : State) (r : RegIx) : s.clearJt.reg r = s.reg r := rfl
@[simp] theorem State.setStop_reg (s : State) (r : RegIx) : s.setStop.reg r = s.reg r := rfl
@[simp] theorem State.jumpTo_reg (s : State) (t : Word) (r : RegIx) : (s.jumpTo t).reg r = s.reg r := rfl
@[simp] theorem State.setMem_reg (s : State) (m : Memory) (r : RegIx) : (s.setMem m).reg r = s.reg r := rfl
@[simp] theorem State.setIw_reg (s : State) (w : Word) (r : RegIx) : (s.setIw w).reg r = s.reg r := rfl

/-- Clearing the cell of x0 changes no read (R214, C5). -/
@[simp] theorem State.forceZero_reg (s : State) (r : RegIx) : s.forceZero.reg r = s.reg r := by
  unfold State.reg State.forceZero
  by_cases h0 : r = 0
  · simp [h0]
  · have : (0 : Nat) ≠ r.val := fun h => h0 (Fin.ext h.symm)
    simp [h0, this]

theorem State.forceZero_cell (s : State) : s.forceZero.regs[0] = 0#32 := by
  simp [State.forceZero]

/-! ## The end of a step (R214, R215) -/

@[simp] theorem State.endStep_reg (s : State) (r : RegIx) : s.endStep.reg r = s.reg r := by
  unfold State.endStep State.updatePc
  split <;> simp

@[simp] theorem State.endStep_cell (s : State) : s.endStep.regs[0] = 0#32 := by
  unfold State.endStep State.updatePc
  split
  · exact State.forceZero_cell s
  · exact State.forceZero_cell s

@[simp] theorem State.endStep_pc (s : State) : s.endStep.pc = if s.jt then s.pc else s.pc + 4#32 := by
  cases h : s.jt <;> simp [State.endStep, State.updatePc, h]

@[simp] theorem State.endStep_jt (s : State) : s.endStep.jt = false := by
  cases h : s.jt <;> simp [State.endStep, State.updatePc, h]

@[simp] theorem State.endStep_stop (s : State) : s.endStep.stop = s.stop := by
  unfold State.endStep State.updatePc
  split <;> simp

@[simp] theorem State.endStep_iw (s : State) : s.endStep.iw = s.iw := by
  unfold State.endStep State.updatePc
  split <;> simp

@[simp] theorem State.endStep_mem (s : State) : s.endStep.mem = s.mem := by
  unfold State.endStep State.updatePc
  split <;> simp

@[simp] theorem State.endStep_out (s : State) : s.endStep.out = s.out := by
  unfold State.endStep State.updatePc
  split <;> simp

@[simp] theorem State.endStep_log (s : State) : s.endStep.log = s.log := by
  unfold State.endStep State.updatePc
  split <;> simp

end Sys2Proof.Machine
end

