-- ==== Sys2Proof/Laws/Ops.lean ====
section
/-! SUPPORT. For each shared operation, once, everything it can do: memory reads and writes, fetch, the execution unit's templates, the
step. -/

namespace Sys2Proof.Machine

/-! ## The memory primitives -/

/-- MemRead(ra, 4): misaligned, out of range, or the word (R42). -/
theorem memReadWord_cases (ra : Word) (s : State) :
    (aligned4 ra = false ∧ memReadWord ra s = .ok (0#32, s.report .misalignedAccess ra)) ∨
    (aligned4 ra = true ∧ inRange ra = false ∧ memReadWord ra s = .error (.outOfRange ra)) ∨
    (aligned4 ra = true ∧ inRange ra = true ∧ memReadWord ra s = .ok (s.mem.wordAt (wordIndex ra), s)) := by
  unfold memReadWord
  cases h1 : aligned4 ra <;> cases h2 : inRange ra <;> simp

/-- MemWrite(ra, 4, v): misaligned, out of range, or the write (R46). -/
theorem memWriteWord_cases (ra v : Word) (s : State) :
    (aligned4 ra = false ∧ memWriteWord ra v s = .ok (s.report .misalignedAccess ra)) ∨
    (aligned4 ra = true ∧ inRange ra = false ∧ memWriteWord ra v s = .error (.outOfRange ra)) ∨
    (aligned4 ra = true ∧ inRange ra = true ∧
      memWriteWord ra v s = .ok (s.setMem (s.mem.setWordAt (wordIndex ra) v))) := by
  unfold memWriteWord
  cases h1 : aligned4 ra <;> cases h2 : inRange ra <;> simp

/-- MemRead(ra, 1): out of range, or the byte at ra (R43). -/
theorem memReadByte_cases (ra : Word) (s : State) :
    (inRange ra = false ∧ memReadByte ra s = .error (.outOfRange ra)) ∨
    (inRange ra = true ∧ memReadByte ra s = .ok (s.mem.get ra.toNat)) := by
  unfold memReadByte
  rw [byteAddr_eq]
  cases h : inRange ra <;> simp

/-- The machine's byte store writes the byte at base + offset (R47, `SB_LANE_SOURCE = resolved`). -/
theorem storeByteAddr_eq (base off : Word) : storeByteAddr base off = (base + off).toNat := byteAddr_eq (base + off)

/-- MemWrite(ra, 1, v): out of range, or the write of one byte (R47). -/
theorem memWriteByte_cases (base off : Word) (v : Byte) (s : State) :
    (inRange (base + off) = false ∧ memWriteByte base off v s = .error (.outOfRange (base + off))) ∨
    (inRange (base + off) = true ∧
      memWriteByte base off v s = .ok (s.setMem (s.mem.set (base + off).toNat v))) := by
  have e : storeByteAddrWith params base off = (base + off).toNat := storeByteAddr_eq base off
  unfold memWriteByte memWriteByteWith resolve
  rw [e]
  cases h : inRange (base + off) <;> simp

/-- The read of print-memory-word: out of range, or M[a >>u 2] (R59). -/
theorem memReadIndexed_cases (a : Word) (s : State) :
    (inRange a = false ∧ memReadIndexed a s = .error (.outOfRange a)) ∨
    (inRange a = true ∧ memReadIndexed a s = .ok (wordIndex a, s.mem.wordAt (wordIndex a))) := by
  unfold memReadIndexed
  by_cases h : inRange a = true
  · exact Or.inr ⟨h, if_pos (wordIndex_lt h)⟩
  · refine Or.inl ⟨by simpa using h, if_neg ?_⟩
    rw [inRange_iff] at h
    rw [wordIndex_eq]
    show ¬ a.toNat / 4 < 4096
    omega

/-! ## The step's phases -/

/-- A Running pc is inside the storage (R210). -/
theorem inRange_of_running {s : State} (h : s.running = true) : inRange s.pc = true := by
  rw [inRange_iff]
  have hb : boundary s.pc = false := by
    simp only [State.running, Bool.and_eq_true, Bool.not_eq_true'] at h
    exact h.2
  have : ¬ (0x2000 ≤ s.pc.toNat) := by
    intro hc
    have : boundary s.pc = true := decide_eq_true hc
    rw [this] at hb
    exact Bool.noConfusion hb
  omega

/-- Fetch in a Running state never faults: a misaligned pc is reported and gives 0, an aligned one gives the word (R210). -/
theorem fetch_of_running {s : State} (h : s.running = true) :
    (aligned4 s.pc = false ∧ fetch s = .ok ((s.report .misalignedAccess s.pc).setIw 0#32)) ∨
    (aligned4 s.pc = true ∧ fetch s = .ok (s.setIw s.fetchedWord)) := by
  have hr := inRange_of_running h
  unfold fetch
  rcases memReadWord_cases s.pc s with ⟨ha, e⟩ | ⟨-, hn, -⟩ | ⟨ha, -, e⟩
  · exact Or.inl ⟨ha, by rw [e]⟩
  · rw [hr] at hn; exact Bool.noConfusion hn
  · exact Or.inr ⟨ha, by rw [e]; rfl⟩

/-- A step that does not run (R217). -/
theorem step_of_stopped {s : State} (h : s.running = false) : step s = .fault .stopped := by
  simp [step, controlStep, h]

/-- What a step answers once fetch has given s1. -/
theorem step_of_fetch {s s1 : State} (h : s.running = true) (hf : fetch s = .ok s1) :
    step s = match exec (decode s1.iw) s1.clearJt with
      | .next u => .next u.endStep
      | .fault f => .fault f
      | .refused r => .refused r := by
  simp only [step, controlStep, h, hf, if_true]
  rfl

/-- Everything a step that answers next can be: it was Running, fetch gave s1, the execution unit answered u, and the step ended u. -/
theorem step_next_cases {s t : State} (h : step s = .next t) :
    s.running = true ∧ ∃ s1 u, fetch s = .ok s1 ∧ exec (decode s1.iw) s1.clearJt = .next u ∧ t = u.endStep := by
  cases hr : s.running with
  | false => rw [step_of_stopped hr] at h; cases h
  | true =>
    refine ⟨rfl, ?_⟩
    rcases fetch_of_running hr with ⟨-, e⟩ | ⟨-, e⟩
    all_goals
      rw [step_of_fetch hr e] at h
      split at h
      · rename_i u hu
        exact ⟨_, u, e, hu, by injection h with h; exact h.symm⟩
      · cases h
      · cases h

end Sys2Proof.Machine
end

