-- ==== Sys2Proof/Laws/Exec.lean ====
section
/-! SUPPORT. What the execution unit can do, said once: every routine's answer has one of the shapes of `Effect`, and each memory routine
has its cases as an equation. -/

namespace Sys2Proof.Machine

/-- The shapes an instruction routine's answer can have (46_control_loop.md R213). -/
inductive Effect (s : State) : Result → Prop where
  /-- Only the answer itself: a branch not taken, nop, an ignored syscall. -/
  | same : Effect s (.next s)
  /-- One register written. -/
  | writeReg (rd : RegIx) (v : Word) : Effect s (.next (s.setReg rd v))
  /-- A misaligned lw: reported, rd written with 0. -/
  | reportThenWriteReg (rd : RegIx) (a : Word) : Effect s (.next ((s.report .misalignedAccess a).setReg rd 0#32))
  /-- A report alone: a misaligned sw, an undefined word. -/
  | report (k : Condition) (a : Word) (hk : k.recorded = true) : Effect s (.next (s.report k a))
  /-- A word stored. -/
  | storeWord (i : Nat) (v : Word) (hi : i < params.memWords) : Effect s (.next (s.setMem (s.mem.setWordAt i v)))
  /-- A byte stored. -/
  | storeByte (a : Nat) (v : Byte) (ha : a < params.memBytes) : Effect s (.next (s.setMem (s.mem.set a v)))
  /-- A taken branch. -/
  | jump (t : Word) : Effect s (.next (s.jumpTo t))
  /-- jal and jalr. -/
  | linkJump (rd : RegIx) (v t : Word) : Effect s (.next ((s.setReg rd v).jumpTo t))
  /-- A print system call. -/
  | emit (e : OutEvent) : Effect s (.next (s.emit e))
  /-- The terminating system call. -/
  | setStop : Effect s (.next s.setStop)
  /-- An access outside the storage. -/
  | outOfRange (a : Word) : Effect s (.fault (.outOfRange a))

/-- The machine's register shifts never fault: the amount is the low five bits (R106). -/
theorem registerShift_eq (op : Word → Nat → Word) (rd rs1 rs2 : RegIx) (s : State) :
    registerShiftWith params op rd rs1 rs2 s = .next (s.setReg rd (op (s.reg rs1) ((s.reg rs2).extractLsb' 0 5).toNat)) := rfl

theorem execLw_cases (rd rs1 : RegIx) (imm : Word) (s : State) :
    (aligned4 (s.reg rs1 + imm) = false ∧
      execLw rd rs1 imm s = .next ((s.report .misalignedAccess (s.reg rs1 + imm)).setReg rd 0#32)) ∨
    (aligned4 (s.reg rs1 + imm) = true ∧ inRange (s.reg rs1 + imm) = false ∧
      execLw rd rs1 imm s = .fault (.outOfRange (s.reg rs1 + imm))) ∨
    (aligned4 (s.reg rs1 + imm) = true ∧ inRange (s.reg rs1 + imm) = true ∧
      execLw rd rs1 imm s = .next (s.setReg rd (s.mem.wordAt (wordIndex (s.reg rs1 + imm))))) := by
  unfold execLw effectiveAddr resolve
  rcases memReadWord_cases (s.reg rs1 + imm) s with ⟨h1, e⟩ | ⟨h1, h2, e⟩ | ⟨h1, h2, e⟩
  · exact Or.inl ⟨h1, by rw [e]⟩
  · exact Or.inr (Or.inl ⟨h1, h2, by rw [e]⟩)
  · exact Or.inr (Or.inr ⟨h1, h2, by rw [e]⟩)

theorem loadByte_cases (extend : Byte → Word) (rd rs1 : RegIx) (imm : Word) (s : State) :
    (inRange (s.reg rs1 + imm) = false ∧ loadByte extend rd rs1 imm s = .fault (.outOfRange (s.reg rs1 + imm))) ∨
    (inRange (s.reg rs1 + imm) = true ∧
      loadByte extend rd rs1 imm s = .next (s.setReg rd (extend (s.mem.get (s.reg rs1 + imm).toNat)))) := by
  unfold loadByte effectiveAddr resolve
  rcases memReadByte_cases (s.reg rs1 + imm) s with ⟨h1, e⟩ | ⟨h1, e⟩
  · exact Or.inl ⟨h1, by rw [e]⟩
  · exact Or.inr ⟨h1, by rw [e]⟩

theorem execSw_cases (rs1 rs2 : RegIx) (imm : Word) (s : State) :
    (aligned4 (s.reg rs1 + imm) = false ∧
      execSw rs1 rs2 imm s = .next (s.report .misalignedAccess (s.reg rs1 + imm))) ∨
    (aligned4 (s.reg rs1 + imm) = true ∧ inRange (s.reg rs1 + imm) = false ∧
      execSw rs1 rs2 imm s = .fault (.outOfRange (s.reg rs1 + imm))) ∨
    (aligned4 (s.reg rs1 + imm) = true ∧ inRange (s.reg rs1 + imm) = true ∧
      execSw rs1 rs2 imm s = .next (s.setMem (s.mem.setWordAt (wordIndex (s.reg rs1 + imm)) (s.reg rs2)))) := by
  unfold execSw effectiveAddr resolve
  rcases memWriteWord_cases (s.reg rs1 + imm) (s.reg rs2) s with ⟨h1, e⟩ | ⟨h1, h2, e⟩ | ⟨h1, h2, e⟩
  · exact Or.inl ⟨h1, by rw [e]⟩
  · exact Or.inr (Or.inl ⟨h1, h2, by rw [e]⟩)
  · exact Or.inr (Or.inr ⟨h1, h2, by rw [e]⟩)

theorem execSb_cases (rs1 rs2 : RegIx) (imm : Word) (s : State) :
    (inRange (s.reg rs1 + imm) = false ∧ execSb rs1 rs2 imm s = .fault (.outOfRange (s.reg rs1 + imm))) ∨
    (inRange (s.reg rs1 + imm) = true ∧
      execSb rs1 rs2 imm s =
        .next (s.setMem (s.mem.set (s.reg rs1 + imm).toNat ((s.reg rs2).extractLsb' 0 8)))) := by
  unfold execSb storeByteWith
  rcases memWriteByte_cases (s.reg rs1) imm ((s.reg rs2).extractLsb' 0 8) s with ⟨h1, e⟩ | ⟨h1, e⟩
  · refine Or.inl ⟨h1, ?_⟩
    change memWriteByteWith params _ _ _ _ = _ at e
    rw [e]
  · refine Or.inr ⟨h1, ?_⟩
    change memWriteByteWith params _ _ _ _ = _ at e
    rw [e]

theorem branchOp_cases (cond : Word → Word → Bool) (rs1 rs2 : RegIx) (imm : Word) (s : State) :
    (cond (s.reg rs1) (s.reg rs2) = true ∧ branchOp cond rs1 rs2 imm s = .next (s.jumpTo (s.pc + imm))) ∨
    (cond (s.reg rs1) (s.reg rs2) = false ∧ branchOp cond rs1 rs2 imm s = .next s) := by
  unfold branchOp
  cases h : cond (s.reg rs1) (s.reg rs2) <;> simp

theorem branchOp_effect (cond : Word → Word → Bool) (rs1 rs2 : RegIx) (imm : Word) (s : State) :
    Effect s (branchOp cond rs1 rs2 imm s) := by
  rcases branchOp_cases cond rs1 rs2 imm s with ⟨-, e⟩ | ⟨-, e⟩ <;> rw [e]
  · exact .jump _
  · exact .same

/-- The machine's jalr: the old rs1 plus the immediate, unmasked (R182). -/
theorem execJalr_eq (rd rs1 : RegIx) (imm : Word) (s : State) :
    execJalr rd rs1 imm s = .next ((s.setReg rd (s.pc + 4#32)).jumpTo (s.reg rs1 + imm)) := rfl

/-- ecall, by the syscall number (R193). -/
theorem execEcall_cases (s : State) :
    (s.reg 17 = 1#32 ∧ execEcall s = .next (s.emit (.outInt (s.reg 10)))) ∨
    (s.reg 17 = 4#32 ∧ inRange (s.reg 10) = false ∧ execEcall s = .fault (.outOfRange (s.reg 10))) ∨
    (s.reg 17 = 4#32 ∧ inRange (s.reg 10) = true ∧
      execEcall s = .next (s.emit (.outMemWord (wordIndex (s.reg 10)) (s.mem.wordAt (wordIndex (s.reg 10)))))) ∨
    (s.reg 17 = 10#32 ∧ execEcall s = .next s.setStop) ∨
    (s.reg 17 ≠ 1#32 ∧ s.reg 17 ≠ 4#32 ∧ s.reg 17 ≠ 10#32 ∧ execEcall s = .next s) := by
  have hdef : execEcall s =
      if s.reg 17 = 1#32 then printInt (s.reg 10) s
      else if s.reg 17 = 4#32 then printMemWord (s.reg 10) s
      else if s.reg 17 = 10#32 then terminate s
      else .next s := rfl
  by_cases h1 : s.reg 17 = 1#32
  · exact Or.inl ⟨h1, by rw [hdef, if_pos h1]; rfl⟩
  · by_cases h4 : s.reg 17 = 4#32
    · rw [if_neg h1, if_pos h4] at hdef
      rcases memReadIndexed_cases (s.reg 10) s with ⟨hr, e⟩ | ⟨hr, e⟩
      · exact Or.inr (Or.inl ⟨h4, hr, by rw [hdef, printMemWord, e]⟩)
      · exact Or.inr (Or.inr (Or.inl ⟨h4, hr, by rw [hdef, printMemWord, e]⟩))
    · rw [if_neg h1, if_neg h4] at hdef
      by_cases h10 : s.reg 17 = 10#32
      · exact Or.inr (Or.inr (Or.inr (Or.inl ⟨h10, by rw [hdef, if_pos h10]; rfl⟩)))
      · exact Or.inr (Or.inr (Or.inr (Or.inr ⟨h1, h4, h10, by rw [hdef, if_neg h10]⟩)))

theorem execLw_effect (rd rs1 : RegIx) (imm : Word) (s : State) : Effect s (execLw rd rs1 imm s) := by
  rcases execLw_cases rd rs1 imm s with ⟨-, e⟩ | ⟨-, -, e⟩ | ⟨-, -, e⟩ <;> rw [e]
  · exact .reportThenWriteReg rd _
  · exact .outOfRange _
  · exact .writeReg rd _

theorem loadByte_effect (extend : Byte → Word) (rd rs1 : RegIx) (imm : Word) (s : State) :
    Effect s (loadByte extend rd rs1 imm s) := by
  rcases loadByte_cases extend rd rs1 imm s with ⟨-, e⟩ | ⟨-, e⟩ <;> rw [e]
  · exact .outOfRange _
  · exact .writeReg rd _

theorem execSw_effect (rs1 rs2 : RegIx) (imm : Word) (s : State) : Effect s (execSw rs1 rs2 imm s) := by
  rcases execSw_cases rs1 rs2 imm s with ⟨-, e⟩ | ⟨-, -, e⟩ | ⟨-, h, e⟩ <;> rw [e]
  · exact .report _ _ rfl
  · exact .outOfRange _
  · exact .storeWord _ _ (wordIndex_lt h)

theorem execSb_effect (rs1 rs2 : RegIx) (imm : Word) (s : State) : Effect s (execSb rs1 rs2 imm s) := by
  rcases execSb_cases rs1 rs2 imm s with ⟨-, e⟩ | ⟨h, e⟩ <;> rw [e]
  · exact .outOfRange _
  · exact .storeByte _ _ (by rw [memBytes_eq]; exact (inRange_iff _).mp h)

theorem execEcall_effect (s : State) : Effect s (execEcall s) := by
  rcases execEcall_cases s with ⟨-, e⟩ | ⟨-, -, e⟩ | ⟨-, -, e⟩ | ⟨-, e⟩ | ⟨-, -, -, e⟩ <;> rw [e]
  · exact .emit _
  · exact .outOfRange _
  · exact .emit _
  · exact .setStop
  · exact .same

/-- Every routine's answer has one of the shapes of `Effect`. -/
theorem exec_effect (i : Instr) (s : State) : Effect s (exec i s) := by
  cases i with
  | add rd rs1 rs2 => exact .writeReg rd _
  | sub rd rs1 rs2 => exact .writeReg rd _
  | and rd rs1 rs2 => exact .writeReg rd _
  | or rd rs1 rs2 => exact .writeReg rd _
  | xor rd rs1 rs2 => exact .writeReg rd _
  | sll rd rs1 rs2 => exact .writeReg rd _
  | srl rd rs1 rs2 => exact .writeReg rd _
  | sra rd rs1 rs2 => exact .writeReg rd _
  | slt rd rs1 rs2 => exact .writeReg rd _
  | sltu rd rs1 rs2 => exact .writeReg rd _
  | addi rd rs1 imm => exact .writeReg rd _
  | andi rd rs1 imm => exact .writeReg rd _
  | ori rd rs1 imm => exact .writeReg rd _
  | xori rd rs1 imm => exact .writeReg rd _
  | slli rd rs1 shamt => exact .writeReg rd _
  | srli rd rs1 shamt => exact .writeReg rd _
  | srai rd rs1 shamt => exact .writeReg rd _
  | slti rd rs1 imm => exact .writeReg rd _
  | sltiu rd rs1 imm => exact .writeReg rd _
  | lui rd imm => exact .writeReg rd _
  | auipc rd imm => exact .writeReg rd _
  | lw rd rs1 imm => exact execLw_effect rd rs1 imm s
  | lb rd rs1 imm => exact loadByte_effect _ rd rs1 imm s
  | lbu rd rs1 imm => exact loadByte_effect _ rd rs1 imm s
  | sw rs1 rs2 imm => exact execSw_effect rs1 rs2 imm s
  | sb rs1 rs2 imm => exact execSb_effect rs1 rs2 imm s
  | beq rs1 rs2 imm => exact branchOp_effect _ rs1 rs2 imm s
  | bne rs1 rs2 imm => exact branchOp_effect _ rs1 rs2 imm s
  | bge rs1 rs2 imm => exact branchOp_effect _ rs1 rs2 imm s
  | bgeu rs1 rs2 imm => exact branchOp_effect _ rs1 rs2 imm s
  | blt rs1 rs2 imm => exact branchOp_effect _ rs1 rs2 imm s
  | bltu rs1 rs2 imm => exact branchOp_effect _ rs1 rs2 imm s
  | jal rd imm => exact .linkJump rd _ _
  | jalr rd rs1 imm => exact .linkJump rd _ _
  | nop => exact .same
  | undefined w => exact .report _ _ rfl
  | ecall => exact execEcall_effect s

end Sys2Proof.Machine
end

