-- ==== Sys2Proof/Laws/PerInstr.lean ====
section
/-! SUPPORT. Statements made per instruction. Family EncodeKey: the encoder puts an instruction's opcode, funct3 and funct7 where the
dispatcher looks for them (30_encoding.md R61, R62, R73 to R84). -/

namespace Sys2Proof

/-! ## The key fields of each format -/

@[simp] theorem opcodeOf_encodeR (op : BitVec 7) (f3 : BitVec 3) (f7 : BitVec 7) (rd rs1 rs2 : RegIx) : opcodeOf (encodeR op f3 f7 rd rs1 rs2) = op := by
  apply BitVec.eq_of_getLsbD_eq
  intro i hi
  simp only [opcodeOf, bitField, encodeR, BitVec.getLsbD_extractLsb', BitVec.getLsbD_append]
  interval_cases i <;> simp

@[simp] theorem funct3Of_encodeR (op : BitVec 7) (f3 : BitVec 3) (f7 : BitVec 7) (rd rs1 rs2 : RegIx) : funct3Of (encodeR op f3 f7 rd rs1 rs2) = f3 := by
  apply BitVec.eq_of_getLsbD_eq
  intro i hi
  simp only [funct3Of, bitField, encodeR, BitVec.getLsbD_extractLsb', BitVec.getLsbD_append]
  interval_cases i <;> simp

@[simp] theorem funct7Of_encodeR (op : BitVec 7) (f3 : BitVec 3) (f7 : BitVec 7) (rd rs1 rs2 : RegIx) : funct7Of (encodeR op f3 f7 rd rs1 rs2) = f7 := by
  apply BitVec.eq_of_getLsbD_eq
  intro i hi
  simp only [funct7Of, bitField, encodeR, BitVec.getLsbD_extractLsb', BitVec.getLsbD_append]
  interval_cases i <;> simp

@[simp] theorem opcodeOf_encodeI (op : BitVec 7) (f3 : BitVec 3) (rd rs1 : RegIx) (imm : Word) : opcodeOf (encodeI op f3 rd rs1 imm) = op := by
  apply BitVec.eq_of_getLsbD_eq
  intro i hi
  simp only [opcodeOf, bitField, encodeI, BitVec.getLsbD_extractLsb', BitVec.getLsbD_append]
  interval_cases i <;> simp

@[simp] theorem funct3Of_encodeI (op : BitVec 7) (f3 : BitVec 3) (rd rs1 : RegIx) (imm : Word) : funct3Of (encodeI op f3 rd rs1 imm) = f3 := by
  apply BitVec.eq_of_getLsbD_eq
  intro i hi
  simp only [funct3Of, bitField, encodeI, BitVec.getLsbD_extractLsb', BitVec.getLsbD_append]
  interval_cases i <;> simp

@[simp] theorem opcodeOf_encodeShift (f3 : BitVec 3) (f7 : BitVec 7) (rd rs1 : RegIx) (shamt : BitVec 5) : opcodeOf (encodeShift f3 f7 rd rs1 shamt) = opImmediate := by
  apply BitVec.eq_of_getLsbD_eq
  intro i hi
  simp only [opcodeOf, bitField, encodeShift, BitVec.getLsbD_extractLsb', BitVec.getLsbD_append]
  interval_cases i <;> simp

@[simp] theorem funct3Of_encodeShift (f3 : BitVec 3) (f7 : BitVec 7) (rd rs1 : RegIx) (shamt : BitVec 5) : funct3Of (encodeShift f3 f7 rd rs1 shamt) = f3 := by
  apply BitVec.eq_of_getLsbD_eq
  intro i hi
  simp only [funct3Of, bitField, encodeShift, BitVec.getLsbD_extractLsb', BitVec.getLsbD_append]
  interval_cases i <;> simp

@[simp] theorem funct7Of_encodeShift (f3 : BitVec 3) (f7 : BitVec 7) (rd rs1 : RegIx) (shamt : BitVec 5) : funct7Of (encodeShift f3 f7 rd rs1 shamt) = f7 := by
  apply BitVec.eq_of_getLsbD_eq
  intro i hi
  simp only [funct7Of, bitField, encodeShift, BitVec.getLsbD_extractLsb', BitVec.getLsbD_append]
  interval_cases i <;> simp

@[simp] theorem opcodeOf_encodeS (f3 : BitVec 3) (rs1 rs2 : RegIx) (imm : Word) : opcodeOf (encodeS f3 rs1 rs2 imm) = opStore := by
  apply BitVec.eq_of_getLsbD_eq
  intro i hi
  simp only [opcodeOf, bitField, encodeS, BitVec.getLsbD_extractLsb', BitVec.getLsbD_append]
  interval_cases i <;> simp

@[simp] theorem funct3Of_encodeS (f3 : BitVec 3) (rs1 rs2 : RegIx) (imm : Word) : funct3Of (encodeS f3 rs1 rs2 imm) = f3 := by
  apply BitVec.eq_of_getLsbD_eq
  intro i hi
  simp only [funct3Of, bitField, encodeS, BitVec.getLsbD_extractLsb', BitVec.getLsbD_append]
  interval_cases i <;> simp

@[simp] theorem opcodeOf_encodeB (f3 : BitVec 3) (rs1 rs2 : RegIx) (imm : Word) : opcodeOf (encodeB f3 rs1 rs2 imm) = opBranch := by
  apply BitVec.eq_of_getLsbD_eq
  intro i hi
  simp only [opcodeOf, bitField, encodeB, BitVec.getLsbD_extractLsb', BitVec.getLsbD_append]
  interval_cases i <;> simp

@[simp] theorem funct3Of_encodeB (f3 : BitVec 3) (rs1 rs2 : RegIx) (imm : Word) : funct3Of (encodeB f3 rs1 rs2 imm) = f3 := by
  apply BitVec.eq_of_getLsbD_eq
  intro i hi
  simp only [funct3Of, bitField, encodeB, BitVec.getLsbD_extractLsb', BitVec.getLsbD_append]
  interval_cases i <;> simp

@[simp] theorem opcodeOf_encodeU (op : BitVec 7) (rd : RegIx) (imm : Word) : opcodeOf (encodeU op rd imm) = op := by
  apply BitVec.eq_of_getLsbD_eq
  intro i hi
  simp only [opcodeOf, bitField, encodeU, BitVec.getLsbD_extractLsb', BitVec.getLsbD_append]
  interval_cases i <;> simp

@[simp] theorem opcodeOf_encodeJ (rd : RegIx) (imm : Word) : opcodeOf (encodeJ rd imm) = opJal := by
  apply BitVec.eq_of_getLsbD_eq
  intro i hi
  simp only [opcodeOf, bitField, encodeJ, BitVec.getLsbD_extractLsb', BitVec.getLsbD_append]
  interval_cases i <;> simp

/-- A word R84 calls unrecognised has no InstructionId but Undefined. -/
theorem id_of_unrecognised {w : Word} (h : unrecognised w = true) : idOfWith params w = .undefined := by
  simp only [unrecognised, unrecognisedWith] at h
  unfold idOfWith
  generalize opcodeOf w = o at *
  generalize funct3Of w = f3 at *
  generalize funct7Of w = f7 at *
  split_ifs at h with h1 h2 h3 h4 h5 h6 h7
  · subst h1
    change loadGroup f3 = _
    clear f7; revert f3; decide
  · subst h2
    change storeGroup f3 = _
    clear f7 h1; revert f3; decide
  · subst h3
    change branchGroup f3 = _
    clear f7 h1 h2; revert f3; decide
  · subst h4
    change (if f3 = 0#3 then InstructionId.ecall else .undefined) = _
    exact if_neg (by simpa using h)
  · subst h5
    change (if f3 = 0#3 ∧ f7 = 0#7 then InstructionId.nop else .undefined) = _
    refine if_neg fun hn => ?_
    simp [hn.1, hn.2] at h
  · simp [params] at h
  · simp [params] at h
  · simp only [List.mem_cons, List.not_mem_nil, or_false, not_or, decide_eq_true_eq] at h
    simp [classifyInstructionWith, h1, h2, h3, h4, h5, h6, h7, h.1, h.2.1, h.2.2.1, h.2.2.2]

namespace Laws.EncodeKey

/-- The dispatcher gives a well-formed instruction's own InstructionId for the word the encoder writes. -/
def Statement (i : Instr) : Prop := i.wf = true → idOfWith params (encode i) = i.id

theorem add (rd rs1 rs2 : RegIx) : Statement (.add rd rs1 rs2) := by
  intro _
  simp only [encode, idOfWith, opcodeOf_encodeR, funct3Of_encodeR, funct7Of_encodeR]
  rfl

theorem sub (rd rs1 rs2 : RegIx) : Statement (.sub rd rs1 rs2) := by
  intro _
  simp only [encode, idOfWith, opcodeOf_encodeR, funct3Of_encodeR, funct7Of_encodeR]
  rfl

theorem and (rd rs1 rs2 : RegIx) : Statement (.and rd rs1 rs2) := by
  intro _
  simp only [encode, idOfWith, opcodeOf_encodeR, funct3Of_encodeR, funct7Of_encodeR]
  rfl

theorem or (rd rs1 rs2 : RegIx) : Statement (.or rd rs1 rs2) := by
  intro _
  simp only [encode, idOfWith, opcodeOf_encodeR, funct3Of_encodeR, funct7Of_encodeR]
  rfl

theorem xor (rd rs1 rs2 : RegIx) : Statement (.xor rd rs1 rs2) := by
  intro _
  simp only [encode, idOfWith, opcodeOf_encodeR, funct3Of_encodeR, funct7Of_encodeR]
  rfl

theorem sll (rd rs1 rs2 : RegIx) : Statement (.sll rd rs1 rs2) := by
  intro _
  simp only [encode, idOfWith, opcodeOf_encodeR, funct3Of_encodeR, funct7Of_encodeR]
  rfl

theorem srl (rd rs1 rs2 : RegIx) : Statement (.srl rd rs1 rs2) := by
  intro _
  simp only [encode, idOfWith, opcodeOf_encodeR, funct3Of_encodeR, funct7Of_encodeR]
  rfl

theorem sra (rd rs1 rs2 : RegIx) : Statement (.sra rd rs1 rs2) := by
  intro _
  simp only [encode, idOfWith, opcodeOf_encodeR, funct3Of_encodeR, funct7Of_encodeR]
  rfl

theorem slt (rd rs1 rs2 : RegIx) : Statement (.slt rd rs1 rs2) := by
  intro _
  simp only [encode, idOfWith, opcodeOf_encodeR, funct3Of_encodeR, funct7Of_encodeR]
  rfl

theorem sltu (rd rs1 rs2 : RegIx) : Statement (.sltu rd rs1 rs2) := by
  intro _
  simp only [encode, idOfWith, opcodeOf_encodeR, funct3Of_encodeR, funct7Of_encodeR]
  rfl

theorem addi (rd rs1 : RegIx) (imm : Word) : Statement (.addi rd rs1 imm) := by
  intro _
  simp only [encode, idOfWith, opcodeOf_encodeI, funct3Of_encodeI]
  rfl

theorem andi (rd rs1 : RegIx) (imm : Word) : Statement (.andi rd rs1 imm) := by
  intro _
  simp only [encode, idOfWith, opcodeOf_encodeI, funct3Of_encodeI]
  rfl

theorem ori (rd rs1 : RegIx) (imm : Word) : Statement (.ori rd rs1 imm) := by
  intro _
  simp only [encode, idOfWith, opcodeOf_encodeI, funct3Of_encodeI]
  rfl

theorem xori (rd rs1 : RegIx) (imm : Word) : Statement (.xori rd rs1 imm) := by
  intro _
  simp only [encode, idOfWith, opcodeOf_encodeI, funct3Of_encodeI]
  rfl

theorem slli (rd rs1 : RegIx) (shamt : BitVec 5) : Statement (.slli rd rs1 shamt) := by
  intro _
  simp only [encode, idOfWith, opcodeOf_encodeShift, funct3Of_encodeShift, funct7Of_encodeShift]
  rfl

theorem srli (rd rs1 : RegIx) (shamt : BitVec 5) : Statement (.srli rd rs1 shamt) := by
  intro _
  simp only [encode, idOfWith, opcodeOf_encodeShift, funct3Of_encodeShift, funct7Of_encodeShift]
  rfl

theorem srai (rd rs1 : RegIx) (shamt : BitVec 5) : Statement (.srai rd rs1 shamt) := by
  intro _
  simp only [encode, idOfWith, opcodeOf_encodeShift, funct3Of_encodeShift, funct7Of_encodeShift]
  rfl

theorem slti (rd rs1 : RegIx) (imm : Word) : Statement (.slti rd rs1 imm) := by
  intro _
  simp only [encode, idOfWith, opcodeOf_encodeI, funct3Of_encodeI]
  rfl

theorem sltiu (rd rs1 : RegIx) (imm : Word) : Statement (.sltiu rd rs1 imm) := by
  intro _
  simp only [encode, idOfWith, opcodeOf_encodeI, funct3Of_encodeI]
  rfl

theorem lui (rd : RegIx) (imm : Word) : Statement (.lui rd imm) := by
  intro _
  simp only [encode, idOfWith, opcodeOf_encodeU]
  rfl

theorem auipc (rd : RegIx) (imm : Word) : Statement (.auipc rd imm) := by
  intro _
  simp only [encode, idOfWith, opcodeOf_encodeU]
  rfl

theorem lw (rd rs1 : RegIx) (imm : Word) : Statement (.lw rd rs1 imm) := by
  intro _
  simp only [encode, idOfWith, opcodeOf_encodeI, funct3Of_encodeI]
  rfl

theorem lb (rd rs1 : RegIx) (imm : Word) : Statement (.lb rd rs1 imm) := by
  intro _
  simp only [encode, idOfWith, opcodeOf_encodeI, funct3Of_encodeI]
  rfl

theorem lbu (rd rs1 : RegIx) (imm : Word) : Statement (.lbu rd rs1 imm) := by
  intro _
  simp only [encode, idOfWith, opcodeOf_encodeI, funct3Of_encodeI]
  rfl

theorem sw (rs1 rs2 : RegIx) (imm : Word) : Statement (.sw rs1 rs2 imm) := by
  intro _
  simp only [encode, idOfWith, opcodeOf_encodeS, funct3Of_encodeS]
  rfl

theorem sb (rs1 rs2 : RegIx) (imm : Word) : Statement (.sb rs1 rs2 imm) := by
  intro _
  simp only [encode, idOfWith, opcodeOf_encodeS, funct3Of_encodeS]
  rfl

theorem beq (rs1 rs2 : RegIx) (imm : Word) : Statement (.beq rs1 rs2 imm) := by
  intro _
  simp only [encode, idOfWith, opcodeOf_encodeB, funct3Of_encodeB]
  rfl

theorem bne (rs1 rs2 : RegIx) (imm : Word) : Statement (.bne rs1 rs2 imm) := by
  intro _
  simp only [encode, idOfWith, opcodeOf_encodeB, funct3Of_encodeB]
  rfl

theorem bge (rs1 rs2 : RegIx) (imm : Word) : Statement (.bge rs1 rs2 imm) := by
  intro _
  simp only [encode, idOfWith, opcodeOf_encodeB, funct3Of_encodeB]
  rfl

theorem bgeu (rs1 rs2 : RegIx) (imm : Word) : Statement (.bgeu rs1 rs2 imm) := by
  intro _
  simp only [encode, idOfWith, opcodeOf_encodeB, funct3Of_encodeB]
  rfl

theorem blt (rs1 rs2 : RegIx) (imm : Word) : Statement (.blt rs1 rs2 imm) := by
  intro _
  simp only [encode, idOfWith, opcodeOf_encodeB, funct3Of_encodeB]
  rfl

theorem bltu (rs1 rs2 : RegIx) (imm : Word) : Statement (.bltu rs1 rs2 imm) := by
  intro _
  simp only [encode, idOfWith, opcodeOf_encodeB, funct3Of_encodeB]
  rfl

theorem jal (rd : RegIx) (imm : Word) : Statement (.jal rd imm) := by
  intro _
  simp only [encode, idOfWith, opcodeOf_encodeJ]
  rfl

theorem jalr (rd rs1 : RegIx) (imm : Word) : Statement (.jalr rd rs1 imm) := by
  intro _
  simp only [encode, idOfWith, opcodeOf_encodeI, funct3Of_encodeI]
  rfl

theorem nop : Statement .nop := fun _ => by decide

theorem undefined (w : Word) : Statement (.undefined w) := id_of_unrecognised

theorem ecall : Statement .ecall := fun _ => by decide

end Laws.EncodeKey

end Sys2Proof
end

