-- ==== Sys2Proof/Tests/Slice0.lean ====
section
/-! SUPPORT. The model's own tests: what the well-formedness check refuses, words written out from the spec's encodings, one step of each
instruction (expected values from 95_test_vectors.md, whose row each test names), and for every obligation with hypotheses states that
meet them. -/

namespace Sys2Proof.Tests

open Sys2Proof Sys2Proof.Machine

/-- A state at a pc with some registers and some memory words, otherwise as at reset. -/
def machine (pc : Word) (rs : List (RegIx × Word)) (ws : List (Nat × Word)) : State :=
  { rs.foldl (fun s p => s.setReg p.1 p.2) State.reset with
    pc := pc, mem := ws.foldl (fun m p => m.setWordAt p.1 p.2) [] }

/-- The vectors' usual start: one word at pc = 0x100. -/
def at100 (w : Word) (rs : List (RegIx × Word)) : State := machine 0x100#32 rs [(0x40, w)]

/-- The start of the load and store vectors. -/
def memAt100 (w x6 x7 : Word) : State :=
  machine 0x100#32 [(6, x6), (7, x7)] [(0x40, w), (0x800, 0x80112233#32), (0x801, 0xDEADBEEF#32)]

/-- The answer is a next state that the test holds of. -/
def isNext (r : Result) (p : State → Bool) : Bool :=
  match r with
  | .next t => p t
  | _ => false

theorem exists_of_isNext {r : Result} {p : State → Bool} (h : isNext r p = true) : ∃ t, r = .next t ∧ p t = true := by
  cases r with
  | next t => exact ⟨t, rfl, h⟩
  | fault f => cases h
  | refused f => cases h

/-- One step leaves v in register rd, goes to the next instruction and reports nothing. -/
def gives (s : State) (rd : RegIx) (v : Word) : Bool :=
  isNext (step s) fun t => t.reg rd == v && t.pc == s.pc + 4#32 && t.log == s.log && t.mem == s.mem

/-- One step goes to the address. -/
def goesTo (s : State) (pc : Word) : Bool := isNext (step s) fun t => t.pc == pc && !t.jt && t.log == s.log

/-! ## Well-formedness: one ill-formed term for each check -/

theorem test_wf_signed12_refused : Instr.wf (.addi 5 6 2048#32) = false ∧ Instr.wf (.sw 6 7 (-2049#32)) = false := by decide

theorem test_wf_branch_range_refused : Instr.wf (.beq 5 6 4096#32) = false := by decide

theorem test_wf_branch_odd_refused : Instr.wf (.bltu 5 6 7#32) = false := by decide

theorem test_wf_upper_refused : Instr.wf (.lui 5 0x100000#32) = false := by decide

theorem test_wf_jump_range_refused : Instr.wf (.jal 1 0x100000#32) = false := by decide

theorem test_wf_jump_odd_refused : Instr.wf (.jal 1 9#32) = false := by decide

theorem test_wf_recognised_word_refused : Instr.wf (.undefined 0x00000013#32) = false := by decide

theorem test_wf_extremes_accepted :
    Instr.wf (.addi 5 6 (-2048#32)) = true ∧ Instr.wf (.beq 5 6 (-4096#32)) = true ∧ Instr.wf (.beq 5 6 4094#32) = true ∧
      Instr.wf (.lui 5 0xFFFFF#32) = true ∧ Instr.wf (.jal 1 (-1048576#32)) = true ∧ Instr.wf (.undefined 0xFFFFFFFF#32) = true := by decide

/-! ## Decoding: words written out field by field from 30_encoding.md R61, R62 and R72 to R84 -/

theorem test_bits_add : decode (0b0000000#7 ++ 7#5 ++ 6#5 ++ 0b000#3 ++ 5#5 ++ 0b0110011#7 : Word) = .add 5 6 7 := by decide

theorem test_bits_sra : decode (0b0100000#7 ++ 7#5 ++ 6#5 ++ 0b101#3 ++ 5#5 ++ 0b0110011#7 : Word) = .sra 5 6 7 := by decide

theorem test_bits_addi : decode (0b111111111111#12 ++ 6#5 ++ 0b000#3 ++ 5#5 ++ 0b0010011#7 : Word) = .addi 5 6 (-1#32) := by decide

theorem test_bits_srai : decode (0b0100000#7 ++ 31#5 ++ 6#5 ++ 0b101#3 ++ 5#5 ++ 0b0010011#7 : Word) = .srai 5 6 31#5 := by decide

theorem test_bits_lui : decode (0b00010010001101000101#20 ++ 5#5 ++ 0b0110111#7 : Word) = .lui 5 0x12345#32 := by decide

theorem test_bits_lbu : decode (0b000000000011#12 ++ 6#5 ++ 0b100#3 ++ 5#5 ++ 0b0000011#7 : Word) = .lbu 5 6 3#32 := by decide

theorem test_bits_sw : decode (0b1111111#7 ++ 7#5 ++ 6#5 ++ 0b010#3 ++ 0b11000#5 ++ 0b0100011#7 : Word) = .sw 6 7 (-8#32) := by decide

/-- The branch fields in order: offset bits 12, 10 to 5, rs2, rs1, funct3, bits 4 to 1, 11. -/
theorem test_bits_bne :
    decode (0b1#1 ++ 0b111111#6 ++ 0#5 ++ 5#5 ++ 0b001#3 ++ 0b1100#4 ++ 0b1#1 ++ 0b1100011#7 : Word) = .bne 5 0 (-8#32) := by decide

/-- The jump fields in order: offset bits 20, 10 to 1, 11, 19 to 12. -/
theorem test_bits_jal :
    decode (0b0#1 ++ 0b1110000000#10 ++ 0b1#1 ++ 0b00000001#8 ++ 1#5 ++ 0b1101111#7 : Word) = .jal 1 0x1F00#32 := by decide

theorem test_bits_jalr : decode (0b000000000100#12 ++ 5#5 ++ 0b110#3 ++ 1#5 ++ 0b1100111#7 : Word) = .jalr 1 5 4#32 := by decide

theorem test_bits_ecall : decode (0b000000000001#12 ++ 0#5 ++ 0b000#3 ++ 0#5 ++ 0b1110011#7 : Word) = .ecall := by decide

theorem test_bits_nop_undefined :
    decode (0#7 ++ 3#5 ++ 2#5 ++ 0b000#3 ++ 1#5 ++ 0#7 : Word) = .nop ∧
      decode (1#7 ++ 0#5 ++ 0#5 ++ 0b000#3 ++ 0#5 ++ 0#7 : Word) = .undefined 0x02000000#32 := by decide

/-! ## Decoding: one word for every constructor, from the tables of 95_test_vectors.md -/

theorem test_words_register :
    decodeTableWord 32 0x007302B3 = some (.add 5 6 7) ∧
    decodeTableWord 32 0x407302B3 = some (.sub 5 6 7) ∧
    decodeTableWord 32 0x007372B3 = some (.and 5 6 7) ∧
    decodeTableWord 32 0x007362B3 = some (.or 5 6 7) ∧
    decodeTableWord 32 0x007342B3 = some (.xor 5 6 7) ∧
    decodeTableWord 32 0x007312B3 = some (.sll 5 6 7) ∧
    decodeTableWord 32 0x007352B3 = some (.srl 5 6 7) ∧
    decodeTableWord 32 0x407352B3 = some (.sra 5 6 7) ∧
    decodeTableWord 32 0x007322B3 = some (.slt 5 6 7) ∧
    decodeTableWord 32 0x007332B3 = some (.sltu 5 6 7) := by decide

theorem test_words_immediate :
    decodeTableWord 32 0x80030293 = some (.addi 5 6 (-2048#32)) ∧
    decodeTableWord 32 0xFF037293 = some (.andi 5 6 (-16#32)) ∧
    decodeTableWord 32 0x0F036293 = some (.ori 5 6 240#32) ∧
    decodeTableWord 32 0xFFF34293 = some (.xori 5 6 (-1#32)) ∧
    decodeTableWord 32 0x01F31293 = some (.slli 5 6 31#5) ∧
    decodeTableWord 32 0x01035293 = some (.srli 5 6 16#5) ∧
    decodeTableWord 32 0x41F35293 = some (.srai 5 6 31#5) ∧
    decodeTableWord 32 0x80032293 = some (.slti 5 6 (-2048#32)) ∧
    decodeTableWord 32 0x7FF33293 = some (.sltiu 5 6 2047#32) := by decide

theorem test_words_upper_load_store :
    decodeTableWord 32 0xFFFFF2B7 = some (.lui 5 0xFFFFF#32) ∧
    decodeTableWord 32 0x00001297 = some (.auipc 5 1#32) ∧
    decodeTableWord 32 0xFFC32283 = some (.lw 5 6 (-4#32)) ∧
    decodeTableWord 32 0x00730283 = some (.lb 5 6 7#32) ∧
    decodeTableWord 32 0x00334283 = some (.lbu 5 6 3#32) ∧
    decodeTableWord 32 0xFE732C23 = some (.sw 6 7 (-8#32)) ∧
    decodeTableWord 32 0x007302A3 = some (.sb 6 7 5#32) := by decide

theorem test_words_control :
    decodeTableWord 32 0x7E000FE3 = some (.beq 0 0 4094#32) ∧
    decodeTableWord 32 0x80001063 = some (.bne 0 0 (-4096#32)) ∧
    decodeTableWord 32 0x0062D463 = some (.bge 5 6 8#32) ∧
    decodeTableWord 32 0x0062F463 = some (.bgeu 5 6 8#32) ∧
    decodeTableWord 32 0x0062C463 = some (.blt 5 6 8#32) ∧
    decodeTableWord 32 0x0062E463 = some (.bltu 5 6 8#32) ∧
    decodeTableWord 32 0x800000EF = some (.jal 1 (-1048576#32)) ∧
    decodeTableWord 32 0xFFC000E7 = some (.jalr 1 0 (-4#32)) := by decide

theorem test_words_system :
    decodeTableWord 32 0x00000080 = some (.nop) ∧
    decodeTableWord 32 0x30200073 = some (.ecall) ∧
    decodeTableWord 32 0xC00022F3 = some (.undefined 0xC00022F3#32) ∧
    decodeTableWord 32 0x0FF0000F = some (.undefined 0x0FF0000F#32) := by decide

theorem test_decode_bytes_truncated : decodeBytes [0x13#8, 0#8, 0#8] = .reject .truncated := by decide

theorem test_encode_examples :
    encode (.sw 6 7 (-8#32)) = 0xFE732C23#32 ∧ encode (.jal 1 0x1F00#32) = 0x701010EF#32 ∧ encode (.bne 5 0 (-8#32)) = 0xFE029CE3#32 := by decide

/-! ## One step of each instruction, and the step's phases -/

/-- V40.4. -/
theorem test_add_wraps : gives (at100 0x007302B3#32 [(6, 0xFFFFFFFF#32), (7, 0x00000001#32)]) 5 0#32 = true := by decide

/-- V40.48. -/
theorem test_add_source_is_destination : gives (at100 0x00630333#32 [(6, 0x40000000#32)]) 6 0x80000000#32 = true := by decide

/-- V40.9. -/
theorem test_sub : gives (at100 0x407302B3#32 [(6, 0x80000000#32), (7, 1#32)]) 5 0x7FFFFFFF#32 = true := by decide

/-- V40.49. -/
theorem test_sub_source_is_destination : gives (at100 0x40638333#32 [(6, 3#32), (7, 0xA#32)]) 6 7#32 = true := by decide

/-- V40.46. -/
theorem test_and : gives (at100 0x007372B3#32 [(6, 0xF0F0F0F0#32), (7, 0xFF00FF00#32)]) 5 0xF000F000#32 = true := by decide

/-- V40.44. -/
theorem test_or : gives (at100 0x007362B3#32 [(6, 0x80000000#32), (7, 1#32)]) 5 0x80000001#32 = true := by decide

/-- V40.28. -/
theorem test_xor : gives (at100 0x007342B3#32 [(6, 0xFFFFFFFF#32), (7, 0x12345678#32)]) 5 0xEDCBA987#32 = true := by decide

/-- V40.15. -/
theorem test_sll_by_33 : gives (at100 0x007312B3#32 [(6, 1#32), (7, 0x21#32)]) 5 2#32 = true := by decide

/-- V40.35. -/
theorem test_srl_by_63 : gives (at100 0x007352B3#32 [(6, 0xFFFFFFFF#32), (7, 0x3F#32)]) 5 1#32 = true := by decide

/-- V40.41. -/
theorem test_sra_by_36 : gives (at100 0x407352B3#32 [(6, 0x80000000#32), (7, 0x24#32)]) 5 0xF8000000#32 = true := by decide

/-- V40.21. -/
theorem test_slt : gives (at100 0x007322B3#32 [(6, 0x80000000#32), (7, 0x7FFFFFFF#32)]) 5 1#32 = true := by decide

/-- V40.27. -/
theorem test_sltu : gives (at100 0x007332B3#32 [(6, 0x80000000#32), (7, 0x7FFFFFFF#32)]) 5 0#32 = true := by decide

/-- V41.2. -/
theorem test_addi : gives (at100 0xFFF30293#32 [(6, 0#32)]) 5 0xFFFFFFFF#32 = true := by decide

/-- V41.7. -/
theorem test_andi : gives (at100 0xFF037293#32 [(6, 0x12345678#32)]) 5 0x12345670#32 = true := by decide

/-- V41.11. -/
theorem test_ori : gives (at100 0x80036293#32 [(6, 0#32)]) 5 0xFFFFF800#32 = true := by decide

/-- V41.15. -/
theorem test_xori : gives (at100 0x7FF34293#32 [(6, 0xFFFFFFFF#32)]) 5 0xFFFFF800#32 = true := by decide

/-- V41.29. -/
theorem test_slli : gives (at100 0x01031293#32 [(6, 0xFFFFFFFF#32)]) 5 0xFFFF0000#32 = true := by decide

/-- V41.32. -/
theorem test_srli : gives (at100 0x01035293#32 [(6, 0xFFFFFFFF#32)]) 5 0x0000FFFF#32 = true := by decide

/-- V41.36. -/
theorem test_srai : gives (at100 0x40435293#32 [(6, 0xF0000000#32)]) 5 0xFF000000#32 = true := by decide

/-- V41.19. -/
theorem test_slti : gives (at100 0xFFF32293#32 [(6, 5#32)]) 5 0#32 = true := by decide

/-- V41.21. -/
theorem test_sltiu : gives (at100 0xFFF33293#32 [(6, 5#32)]) 5 1#32 = true := by decide

/-- V42.3. -/
theorem test_lui : gives (at100 0x800002B7#32 []) 5 0x80000000#32 = true := by decide

/-- V42.9. -/
theorem test_lui_x0 : gives (at100 0x12345037#32 []) 0 0#32 = true := by decide

/-- V42.8. -/
theorem test_auipc : gives (machine 0x1000#32 [] [(0x400, 0xFFFFF297#32)]) 5 0#32 = true := by decide

/-- V43.2. -/
theorem test_lw : gives (memAt100 0x00432283#32 0x2000#32 0#32) 5 0xDEADBEEF#32 = true := by decide

/-- V43.3. -/
theorem test_lw_misaligned :
    isNext (step (memAt100 0x00232283#32 0x2000#32 0#32))
      (fun t => t.reg 5 == 0#32 && t.pc == 0x104#32 && t.log == [⟨.misalignedAccess, 0x100#32, 0x2002#32⟩]) = true := by decide

/-- V43.9. -/
theorem test_lb : gives (memAt100 0x00330283#32 0x2000#32 0#32) 5 0xFFFFFF80#32 = true := by decide

/-- V43.27. -/
theorem test_lb_out_of_range : step (memAt100 0xFFF00283#32 0#32 0#32) = .fault (.outOfRange 0xFFFFFFFF#32) := by rfl

/-- V43.11. -/
theorem test_lbu : gives (memAt100 0x00334283#32 0x2000#32 0#32) 5 0x80#32 = true := by decide

/-- V43.18. -/
theorem test_sw :
    isNext (step (memAt100 0xFE732C23#32 0x2000#32 0x01020304#32))
      (fun t => t.mem.wordAt 0x7FE == 0x01020304#32 && t.mem.get 0x1FF8 == 0x04#8 && t.mem.wordAt 0x800 == 0x80112233#32) = true := by decide

/-- V43.29. -/
theorem test_sw_misaligned :
    isNext (step (memAt100 0x00732023#32 0x4002#32 1#32))
      (fun t => t.mem == (memAt100 0x00732023#32 0x4002#32 1#32).mem && t.log == [⟨.misalignedAccess, 0x100#32, 0x4002#32⟩]) = true := by decide

/-- V43.21. -/
theorem test_sb :
    isNext (step (memAt100 0x00730123#32 0x2000#32 0xABCD12EF#32)) (fun t => t.mem.wordAt 0x800 == 0x80EF2233#32) = true := by decide

/-- Storing what an unlisted address reads as removes the cell. -/
theorem test_sb_zero_removes_cell :
    isNext (step (memAt100 0x007301A3#32 0x2000#32 0#32)) (fun t => t.mem.all (fun c => c.1 != 0x2003)) = true := by decide

/-- V44.M6. -/
theorem test_beq_extremes : goesTo (at100 0x00628463#32 [(5, 0x80000000#32), (6, 0x7FFFFFFF#32)]) 0x104#32 = true := by decide

/-- V44.M1. -/
theorem test_beq_equal : goesTo (at100 0x00628463#32 [(5, 7#32), (6, 7#32)]) 0x108#32 = true := by decide

/-- V44.M6. -/
theorem test_bne_extremes : goesTo (at100 0x00629463#32 [(5, 0x80000000#32), (6, 0x7FFFFFFF#32)]) 0x108#32 = true := by decide

/-- V44.M1. -/
theorem test_bne_equal : goesTo (at100 0x00629463#32 [(5, 7#32), (6, 7#32)]) 0x104#32 = true := by decide

/-- V44.M6. -/
theorem test_blt_extremes : goesTo (at100 0x0062C463#32 [(5, 0x80000000#32), (6, 0x7FFFFFFF#32)]) 0x108#32 = true := by decide

/-- V44.M1. -/
theorem test_blt_equal : goesTo (at100 0x0062C463#32 [(5, 7#32), (6, 7#32)]) 0x104#32 = true := by decide

/-- V44.M6. -/
theorem test_bge_extremes : goesTo (at100 0x0062D463#32 [(5, 0x80000000#32), (6, 0x7FFFFFFF#32)]) 0x104#32 = true := by decide

/-- V44.M1. -/
theorem test_bge_equal : goesTo (at100 0x0062D463#32 [(5, 7#32), (6, 7#32)]) 0x108#32 = true := by decide

/-- V44.M6. -/
theorem test_bltu_extremes : goesTo (at100 0x0062E463#32 [(5, 0x80000000#32), (6, 0x7FFFFFFF#32)]) 0x104#32 = true := by decide

/-- V44.M1. -/
theorem test_bltu_equal : goesTo (at100 0x0062E463#32 [(5, 7#32), (6, 7#32)]) 0x104#32 = true := by decide

/-- V44.M6. -/
theorem test_bgeu_extremes : goesTo (at100 0x0062F463#32 [(5, 0x80000000#32), (6, 0x7FFFFFFF#32)]) 0x108#32 = true := by decide

/-- V44.M1. -/
theorem test_bgeu_equal : goesTo (at100 0x0062F463#32 [(5, 7#32), (6, 7#32)]) 0x108#32 = true := by decide

/-- V44.11. -/
theorem test_jal : isNext (step (at100 0xFFDFF0EF#32 [])) (fun t => t.pc == 0xFC#32 && t.reg 1 == 0x104#32 && !t.jt) = true := by decide

/-- V44.17. -/
theorem test_jalr_link_is_base :
    isNext (step (machine 0x40#32 [(1, 0x88#32)] [(0x10, 0x000080E7#32)]))
      (fun t => t.pc == 0x88#32 && t.reg 1 == 0x44#32) = true := by decide

/-- V44.18. -/
theorem test_jalr_keeps_bit_0 :
    isNext (step (machine 0x40#32 [(5, 0x200#32)] [(0x10, 0x003280E7#32)]))
      (fun t => t.pc == 0x203#32 && t.reg 1 == 0x44#32) = true := by decide

/-- V46.1. -/
theorem test_nop : isNext (step State.reset) (fun t => t == State.reset.setPc 4#32) = true := by decide

/-- V45.4. -/
theorem test_undefined :
    isNext (step (at100 0xC00022F3#32 [(5, 0x55#32)]))
      (fun t => t.reg 5 == 0x55#32 && t.pc == 0x104#32 && t.log == [⟨.undefinedInstruction, 0x100#32, 0xC00022F3#32⟩]) = true := by decide

/-- V45.12. -/
theorem test_ecall_print_word :
    isNext (step (machine 0x100#32 [(17, 4#32), (10, 0x2006#32)] [(0x40, 0x73#32), (0x801, 0x2A#32)]))
      (fun t => t.out == [.outMemWord 0x801 0x2A#32] && t.log == []) = true := by decide

/-- V45.15. -/
theorem test_ecall_exit :
    isNext (step (at100 0x00000073#32 [(17, 10#32)])) (fun t => t.stop && t.pc == 0x104#32 && t.runState == .stopped) = true := by decide

/-- R216, R217: both ways of R220 at once. The end is called exit by the model's choice (notes/assumptions/30.md). -/
theorem test_exit_at_boundary :
    isNext (step (machine 0x1FFC#32 [(17, 10#32)] [(0x7FF, 0x73#32)]))
      (fun t => t.pc == 0x2000#32 && t.stop && t.runEnd == some .exit) = true := by decide

/-- V46.2. -/
theorem test_misaligned_fetch :
    isNext (step (machine 0x102#32 [] [(0x40, 0x00500293#32)]))
      (fun t => t.pc == 0x106#32 && t.reg 5 == 0#32 && t.iw == 0#32 && t.log == [⟨.misalignedAccess, 0x102#32, 0x102#32⟩]) = true := by decide

/-- V46.4, V46.6. -/
theorem test_boundary :
    step (machine 0x2000#32 [] []) = .fault .stopped ∧ step { State.reset with stop := true } = .fault .stopped := ⟨by rfl, by rfl⟩

/-- V46.10. -/
theorem test_store_over_own_word :
    isNext (step (at100 0x00030023#32 [(6, 0x100#32)]))
      (fun t => t.mem.wordAt 0x40 == 0x00030000#32 && t.pc == 0x104#32) = true := by decide

/-- An instruction placed in the reset state runs first. -/
theorem test_placed_word_runs :
    isNext (step (State.reset.withFetchWord 32 0x00500293)) (fun t => t.reg 5 == 5#32 && t.pc == 4#32) = true := by decide

/-- R256. -/
theorem test_launch_admission : (State.launch [0x13#8, 0#8, 0#8, 0#8] []).isSome = true ∧ State.launch [0x13#8] [] = none := by decide

/-- R87. -/
theorem test_pseudo_li : Pseudo.expand (.li 5 0x12345FFF#32) = [.lui 5 0x12346#32, .addi 5 5 (-1#32)] := by decide
/-! ## Witnesses: states and operands that meet the hypotheses of each obligation, clause by clause at the ends of its ranges -/

/-- The opcode, funct3 and funct7 of a word. -/
def keys (w : Word) : BitVec 7 × BitVec 3 × BitVec 7 := (opcodeOf w, funct3Of w, funct7Of w)

theorem test_witness_InsertFieldReplacesBits :
    (∃ lo n i : Nat, i < 32 ∧ lo ≤ i ∧ i < lo + n) ∧ ∃ lo n i : Nat, i < 32 ∧ ¬ (lo ≤ i ∧ i < lo + n) :=
  ⟨⟨25, 7, 31, by decide⟩, ⟨25, 7, 24, by decide⟩⟩

theorem test_witness_ArithmeticGroupsDecode :
    ∀ op ∈ [0b0110011#7, 0b0010011#7], ∀ f3 : BitVec 3, ∀ f7 ∈ [0#7, 0b0100000#7, 0b0100001#7, 0b1111111#7],
      keys (f7 ++ 0#10 ++ f3 ++ 0#5 ++ op : Word) = (op, f3, f7) := by decide

theorem test_witness_LoadStoreBranchGroupsDecode :
    ∀ op ∈ [0b0000011#7, 0b0100011#7, 0b1100011#7], ∀ f3 : BitVec 3, keys (0#17 ++ f3 ++ 0#5 ++ op : Word) = (op, f3, 0#7) := by decide

theorem test_witness_SingleMemberSystemNoOpDecode :
    ∀ op ∈ [0b0110111#7, 0b0010111#7, 0b1101111#7, 0b1100111#7, 0b1110011#7, 0b0000000#7], ∀ f3 ∈ [0#3, 1#3, 7#3],
      ∀ f7 ∈ [0#7, 1#7, 127#7], keys (f7 ++ 0#10 ++ f3 ++ 0#5 ++ op : Word) = (op, f3, f7) := by decide

/-- An undefined word of each kind: a load, store, branch and system word, the all-zero opcode, an opcode of no group. -/
theorem test_witness_FormatMatchesInstruction :
    (∀ w ∈ [0x00031283#32, 0x00001023#32, 0x00002063#32, 0xC00022F3#32, 0x02000000#32, 0x0000007F#32], decode w = .undefined w) ∧
    [0x00031283#32, 0x00001023#32, 0x00002063#32, 0xC00022F3#32, 0x02000000#32, 0x0000007F#32].map opcodeOf =
      [opLoad, opStore, opBranch, opSystem, opNoOp, 0b1111111#7] :=
  ⟨by intro w hw; fin_cases hw <;> decide, by decide⟩

theorem test_witness_DecodeOfEncode :
    ∀ i ∈ [Instr.addi 31 31 (-2048#32), .beq 31 31 (-4096#32), .lui 31 0xFFFFF#32, .jal 31 1048574#32, .undefined 0xFFFFFFFF#32],
      i.wf = true := by decide

/-- Addresses of the word accesses' clauses: misaligned inside and outside the storage, aligned inside, aligned outside. -/
theorem test_witness_LoadWordOutcomes_StoreWordOutcomes :
    (∀ a ∈ [0x1#32, 0x2002#32, 0x4002#32, 0xFFFFFFFF#32], uint (effectiveAddr 6 0#32 (memAt100 0#32 a 0#32)) % 4 ≠ 0) ∧
    (∀ a ∈ [0x0#32, 0x3FFC#32],
      uint (effectiveAddr 6 0#32 (memAt100 0#32 a 0#32)) % 4 = 0 ∧ uint (effectiveAddr 6 0#32 (memAt100 0#32 a 0#32)) < 16384) ∧
    (∀ a ∈ [0x4000#32, 0xFFFFFFFC#32],
      uint (effectiveAddr 6 0#32 (memAt100 0#32 a 0#32)) % 4 = 0 ∧ 16384 ≤ uint (effectiveAddr 6 0#32 (memAt100 0#32 a 0#32))) := by
  refine ⟨?_, ?_, ?_⟩ <;> (intro w hw; fin_cases hw <;> decide)

theorem test_witness_LoadByteOutcomes_StoreByteOutcomes :
    (∀ a ∈ [0x0#32, 0x3FFF#32], uint (effectiveAddr 6 0#32 (memAt100 0#32 a 0#32)) < 16384) ∧
    (∀ a ∈ [0x4000#32, 0xFFFFFFFF#32], 16384 ≤ uint (effectiveAddr 6 0#32 (memAt100 0#32 a 0#32))) := by
  refine ⟨?_, ?_⟩ <;> (intro w hw; fin_cases hw <;> decide)

theorem test_witness_EcallOutcomes :
    (at100 0x73#32 [(17, 1#32)]).reg 17 = 1#32 ∧
    (∀ a ∈ [0x0#32, 0x3FFF#32],
      (at100 0x73#32 [(17, 4#32), (10, a)]).reg 17 = 4#32 ∧ uint ((at100 0x73#32 [(17, 4#32), (10, a)]).reg 10) < 16384) ∧
    (∀ a ∈ [0x4000#32, 0xFFFFFFFF#32],
      (at100 0x73#32 [(17, 4#32), (10, a)]).reg 17 = 4#32 ∧ 16384 ≤ uint ((at100 0x73#32 [(17, 4#32), (10, a)]).reg 10)) ∧
    (at100 0x73#32 [(17, 10#32)]).reg 17 = 10#32 ∧
    (∀ n ∈ [0#32, 5#32, 11#32, 0x10A#32],
      (at100 0x73#32 [(17, n)]).reg 17 ≠ 1#32 ∧ (at100 0x73#32 [(17, n)]).reg 17 ≠ 4#32 ∧ (at100 0x73#32 [(17, n)]).reg 17 ≠ 10#32) := by
  refine ⟨by decide, ?_, ?_, by decide, ?_⟩ <;> (intro w hw; fin_cases hw <;> decide)

theorem test_witness_WordReadChecksAlignmentFirst :
    uint (resolve 0x4000#32 (-1#32)) % 4 ≠ 0 ∧ uint (resolve 0x4000#32 2#32) % 4 ≠ 0 ∧
    (uint (resolve 0x4000#32 (-4#32)) % 4 = 0 ∧ uint (resolve 0x4000#32 (-4#32)) < params.memBytes) ∧
    (uint (resolve 0x4000#32 0#32) % 4 = 0 ∧ params.memBytes ≤ uint (resolve 0x4000#32 0#32)) := by decide

theorem test_witness_ByteReadersExtend :
    memReadByte (effectiveAddr 6 3#32 (memAt100 0#32 0x2000#32 0#32)) (memAt100 0#32 0x2000#32 0#32) = .ok 0x80#8 := by rfl

theorem test_witness_WriteThenReadGivesBack :
    (uint 0x3FFC#32 % 4 = 0 ∧ uint 0x3FFC#32 < 16384 ∧
      ¬ (uint 0x3FFC#32 ≤ uint 0x3FFB#32 ∧ uint 0x3FFB#32 < uint 0x3FFC#32 + 4) ∧
      ¬ (uint 0x3FFC#32 ≤ uint 0x4000#32 ∧ uint 0x4000#32 < uint 0x3FFC#32 + 4)) ∧
    uint (0x2000#32 + 0x1FFF#32) < 16384 ∧
      (0x3FFE#32 ≠ 0x2000#32 + 0x1FFF#32) := by
  refine ⟨⟨?_, ?_, ?_, ?_⟩, ?_, ?_⟩ <;> decide

theorem test_witness_ImmediateLogicWordsExecute :
    (∀ w ∈ [0xFF037293#32, 0x80036293#32, 0xFFF34293#32, 0x80032293#32],
      Fetches (at100 w [(6, 5#32)]) w ∧ opcodeOf w = 0b0010011#7) ∧
    [0xFF037293#32, 0x80036293#32, 0xFFF34293#32, 0x80032293#32].map funct3Of = [0b111#3, 0b110#3, 0b100#3, 0b010#3] := by
  unfold Fetches
  refine ⟨?_, by decide⟩
  intro w hw; fin_cases hw <;> decide

theorem test_witness_LuiWordsExecute :
    ∀ w ∈ [0x800002B7#32, 0x000052B7#32, 0x12345037#32], Fetches (machine 0x1FFC#32 [] [(0x7FF, w)]) w ∧ opcodeOf w = 0b0110111#7 := by
  unfold Fetches
  intro w hw; fin_cases hw <;> decide

theorem test_witness_BranchWordsExecute :
    (∀ w ∈ [0x00628463#32, 0x00629463#32, 0x0062D463#32, 0x0062F463#32, 0x0062C463#32, 0x0062E463#32],
      Fetches (at100 w [(5, 7#32), (6, 7#32)]) w ∧ opcodeOf w = 0b1100011#7) ∧
    [0x00628463#32, 0x00629463#32, 0x0062D463#32, 0x0062F463#32, 0x0062C463#32, 0x0062E463#32].map funct3Of =
      [0b000#3, 0b001#3, 0b101#3, 0b111#3, 0b100#3, 0b110#3] := by
  unfold Fetches
  refine ⟨?_, by decide⟩
  intro w hw; fin_cases hw <;> decide

theorem test_witness_UndefinedWordsAreReportedNoOps :
    ∀ w ∈ [0xC00022F3#32, 0x00031283#32, 0x00001023#32, 0x00002063#32, 0x00001000#32, 0x02000000#32, 0x0000007F#32],
      Fetches (at100 w []) w ∧ unrecognised w = true := by
  unfold Fetches
  intro w hw; fin_cases hw <;> decide

theorem test_witness_UnsupportedSyscallIsIgnored :
    ∀ n ∈ [0#32, 5#32, 93#32, 0x10A#32],
      Fetches (at100 0x73#32 [(17, n)]) 0x73#32 ∧ decode 0x73#32 = .ecall ∧
        (at100 0x73#32 [(17, n)]).reg params.syscallNumReg ∉ [params.sysPrintInt, params.sysPrintMemWord, params.sysExit] := by
  unfold Fetches
  intro w hw; fin_cases hw <;> decide

theorem test_witness_StepRunsDecodedInstruction :
    ∀ pc ∈ [0x0#32, 0x1FFC#32], Fetches (machine pc [] [(wordIndex pc, 0x007302B3#32)]) 0x007302B3#32 ∧
      decode 0x007302B3#32 = .add 5 6 7 := by
  unfold Fetches
  intro w hw; fin_cases hw <;> decide

theorem test_witness_RegisterZeroAndReads :
    (31 : RegIx) ≠ 0 ∧ ∃ t, step (at100 0x00730033#32 [(6, 1#32)]) = .next t ∧ (fun _ => true) t = true :=
  ⟨by decide, exists_of_isNext (by rfl)⟩

theorem test_witness_OnlyExitStops :
    (∃ t, step (at100 0x73#32 [(17, 10#32)]) = .next t ∧ t.stop = true) ∧
    (∃ t, step (at100 0x73#32 [(17, 11#32)]) = .next t ∧ (!t.stop) = true) ∧ ({ State.reset with stop := true } : State).stop = true :=
  ⟨exists_of_isNext (by rfl), exists_of_isNext (by rfl), rfl⟩

theorem test_witness_StoppedIsTerminal :
    ({ State.reset with stop := true } : State).runState = .stopped ∧ (machine 0x2000#32 [] []).runState = .stopped ∧
      (machine 0x1FFF#32 [] []).runState = .running := by decide

/-- One routine that sets jt (a taken branch) and one that does not (the same branch, not taken). -/
theorem test_witness_PcAdvancesUnlessJumpTaken :
    ∀ b ∈ [7#32, 8#32], Fetches (at100 0x00628463#32 [(5, 7#32), (6, b)]) 0x00628463#32 ∧
      isNext (step (at100 0x00628463#32 [(5, 7#32), (6, b)])) (fun t => !t.jt) = true ∧
      isNext (exec (decode 0x00628463#32) ((at100 0x00628463#32 [(5, 7#32), (6, b)]).executing 0x00628463#32))
        (fun u => u.jt == (b == 7#32)) = true := by
  unfold Fetches
  intro w hw; fin_cases hw <;> decide

theorem test_witness_JumpTakenFlagIsTransient :
    State.reset.jt = false ∧ isNext (exec (.jal 1 8#32) State.reset) (fun t => t.jt) = true ∧
    isNext (exec (.add 1 2 3) State.reset) (fun t => !t.jt) = true ∧ isNext (step State.reset) (fun t => !t.jt) = true := by decide

/-- A register written, a word stored, a misaligned sw, a byte stored, a branch not taken, a jump, an exit. -/
theorem test_witness_RoutineWritesAtMostOneLocation :
    isNext (exec (.add 1 2 3) State.reset) (fun t => t.reg 1 != 0#32) = true ∧
    isNext (exec (.sw 0 2 4#32) State.reset) (fun t => t.mem.wordAt 1 != 0#32) = true ∧
    (uint (effectiveAddr 0 2#32 State.reset) % 4 ≠ 0 ∧ isNext (exec (.sw 0 2 2#32) State.reset) (fun t => t.log.length == 1) = true) ∧
    isNext (exec (.sb 0 2 4#32) State.reset) (fun t => t.mem.get (storeByteAddr (State.reset.reg 0) 4#32) == 0xFC#8) = true ∧
    isNext (exec (.bne 0 0 8#32) State.reset) (fun t => t.pc == State.reset.pc) = true ∧
    isNext (exec (.jal 1 8#32) State.reset) (fun t => t.pc != State.reset.pc) = true ∧
    isNext (exec .ecall (at100 0x73#32 [(17, 10#32)])) (fun t => t.stop) = true := by decide

theorem test_witness_ReportsExactly :
    (∃ t, step (memAt100 0x00232283#32 0x2000#32 0#32) = .next t ∧ (fun t => t.log.length == 1) t = true) ∧
    (∃ t, step (machine 0x102#32 [] []) = .next t ∧ (fun t => t.log.length == 1) t = true) ∧
    (Fetches (memAt100 0x00232283#32 0x2000#32 0#32) 0x00232283#32 ∧ decode 0x00232283#32 = .lw 5 6 2#32 ∧
      uint ((memAt100 0x00232283#32 0x2000#32 0#32).reg 6 + 2#32) % 4 ≠ 0) ∧
    (Fetches (memAt100 0x00732123#32 0x2000#32 0#32) 0x00732123#32 ∧ decode 0x00732123#32 = .sw 6 7 2#32 ∧
      uint ((memAt100 0x00732123#32 0x2000#32 0#32).reg 6 + 2#32) % 4 ≠ 0) ∧
    (Fetches (at100 0x0FF0000F#32 []) 0x0FF0000F#32 ∧ unrecognised 0x0FF0000F#32 = true) ∧
    (machine 0x1FFE#32 [] []).running = true ∧ aligned4 (machine 0x1FFE#32 [] []).pc = false := by
  refine ⟨exists_of_isNext (by rfl), exists_of_isNext (by rfl), ?_⟩
  unfold Fetches; decide

theorem test_witness_LogsNeverSteer :
    let s' : State := { State.reset with out := [.outInt 1#32], log := [⟨.undefinedInstruction, 0#32, 7#32⟩] }
    s' = { State.reset with out := s'.out, log := s'.log } ∧ isNext (step State.reset) (fun _ => true) = true ∧
      isNext (step s') (fun _ => true) = true := by decide

/-- A register destination, a misaligned fetch, a word stored, a misaligned sw, a byte stored. -/
theorem test_witness_StepWritesOnlyItsDestination :
    (isNext (step (at100 0x007302B3#32 [])) (fun _ => true) = true ∧ destReg (decode (at100 0x007302B3#32 []).fetchedWord) ≠ some 6) ∧
    (isNext (step (machine 0x102#32 [] [])) (fun _ => true) = true ∧ aligned4 (machine 0x102#32 [] []).pc = false) ∧
    (isNext (step (memAt100 0x00732023#32 0x3FFC#32 1#32)) (fun _ => true) = true ∧
      decode (memAt100 0x00732023#32 0x3FFC#32 1#32).fetchedWord = .sw 6 7 0#32) ∧
    (isNext (step (memAt100 0x00732023#32 0x3FFE#32 1#32)) (fun _ => true) = true ∧
      uint (effectiveAddr 6 0#32 (memAt100 0x00732023#32 0x3FFE#32 1#32)) % 4 ≠ 0) ∧
    (isNext (step (memAt100 0x00730023#32 0x3FFF#32 1#32)) (fun _ => true) = true ∧
      decode (memAt100 0x00730023#32 0x3FFF#32 1#32).fetchedWord = .sb 6 7 0#32) := by decide

theorem test_witness_StepFaultsExactly :
    (memAt100 0x00032283#32 0x4000#32 0#32).running = true ∧
      step (memAt100 0x00032283#32 0x4000#32 0#32) = .fault (.outOfRange 0x4000#32) := ⟨by decide, by rfl⟩

theorem test_witness_StepKeepsInvariant :
    (memAt100 0x00732023#32 0x3FFC#32 1#32).Inv ∧
      ∃ t, step (memAt100 0x00732023#32 0x3FFC#32 1#32) = .next t ∧ (fun t => t.mem.get 0x3FFC == 1#8) t = true :=
  ⟨by unfold State.Inv; decide, exists_of_isNext (by rfl)⟩

/-- The longest images R256 admits. -/
theorem test_witness_ResetAndLaunchMeetInvariant_LaunchPlacesImages :
    (∃ s, State.launch (List.replicate 8192 1#8) (List.replicate 8192 1#8) = some s) ∧
    8192 < (List.replicate 8196 1#8).length ∧ [0#8].length % 4 ≠ 0 :=
  ⟨⟨_, if_pos (by simp only [launchAdmitted, imageFits, List.length_replicate]; decide)⟩, by rw [List.length_replicate]; decide, by decide⟩

theorem test_witness_FirstFetchReadsCodeImage :
    ∃ s, State.launch [0x93#8, 0x02#8, 0x50#8, 0x00#8] [] = some s ∧
      [0x93#8, 0x02#8, 0x50#8, 0x00#8] = 0x93#8 :: 0x02#8 :: 0x50#8 :: 0x00#8 :: ([] : List Byte) := ⟨_, rfl, rfl⟩

/-- V46.9: the word stored is the next one fetched. -/
theorem test_witness_StoredWordIsFetched :
    let s := machine 0x100#32 [(6, 0x104#32), (7, 0x00A00893#32)] [(0x40, 0x00732023#32)]
    aligned4 s.pc = true ∧ decode s.fetchedWord = .sw 6 7 0#32 ∧
      ∃ t, step s = .next t ∧ (t.running && t.pc == effectiveAddr 6 0#32 s && aligned4 t.pc) = true :=
  ⟨by decide, by decide, exists_of_isNext (by rfl)⟩

theorem test_witness_MisalignedFetchIsReportedNoOp :
    ∀ pc ∈ [0x1#32, 0x1FFE#32, 0x1FFF#32], (machine pc [] []).running = true ∧ uint (machine pc [] []).pc % 4 ≠ 0 := by
  intro w hw; fin_cases hw <;> decide

theorem test_witness_BoundaryEndsRun :
    0x2000 ≤ uint (machine 0x2000#32 [] []).pc ∧ 0x2000 ≤ uint (machine 0xFFFFFFFC#32 [] []).pc ∧
      ((machine 0x1FFF#32 [] []).stop = false ∧ uint (machine 0x1FFF#32 [] []).pc < 0x2000) := by decide

theorem test_witness_PlacedWordIsFetched :
    ∀ pc ∈ [0x0#32, 0x1FFC#32], (machine pc [] []).running = true ∧ aligned4 (machine pc [] []).pc = true := by
  intro w hw; fin_cases hw <;> decide

theorem test_witness_ShiftPolicyAlternative :
    32 ≤ uint ((at100 0#32 [(7, 32#32)]).reg 7) ∧ uint ((at100 0#32 [(7, 31#32)]).reg 7) < 32 := by decide

theorem test_witness_StoreLaneAlternative :
    uint ((at100 0#32 [(6, 0x3FFC#32)]).reg 6 + 3#32) < 16384 ∧ uint ((at100 0#32 [(6, 0x3FFC#32)]).reg 6) % 4 = 0 := by decide

end Sys2Proof.Tests
end

section
/-! SUPPORT. What is Running, what a completed step fetched and executed, and what an instruction's routine does to the program counter,
the two flags and the output trace (10_state.md R25 to R28; 46_control_loop.md R210 to R218). -/

namespace Sys2Proof.Machine

/-! ## The run state -/

theorem running_iff (s : State) : s.running = true ↔ s.stop = false ∧ boundary s.pc = false := by
  simp [State.running]

theorem not_running_iff (s : State) : s.running = false ↔ s.stop = true ∨ boundary s.pc = true := by
  cases hs : s.stop <;> simp [State.running, hs]

theorem runState_running_iff (s : State) : s.runState = .running ↔ s.running = true := by
  cases h : s.running <;> simp [State.runState, h]

theorem runState_stopped_iff (s : State) : s.runState = .stopped ↔ s.running = false := by
  cases h : s.running <;> simp [State.runState, h]

theorem step_ne_next_of_not_running {s : State} (h : s.running = false) (t : State) : step s ≠ .next t := by
  simp [step_of_stopped h]

/-! ## What a completed step was -/

@[simp] theorem State.executing_reg (s : State) (w : Word) (r : RegIx) : (s.executing w).reg r = s.reg r := rfl
@[simp] theorem State.executing_pc (s : State) (w : Word) : (s.executing w).pc = s.pc := rfl
@[simp] theorem State.executing_jt (s : State) (w : Word) : (s.executing w).jt = false := rfl
@[simp] theorem State.executing_stop (s : State) (w : Word) : (s.executing w).stop = s.stop := rfl

/-- The word a misaligned fetch gives is the no-op (R210, R82). -/
theorem decode_zero : decode 0#32 = .nop := by decide

/-- A step over a fetched word whose routine completes (R218). -/
theorem step_of_exec_next {s u : State} {w : Word} (hf : Fetches s w) (hu : exec (decode w) (s.executing w) = .next u) :
    step s = .next u.endStep := by
  obtain ⟨hr, ha, rfl⟩ := hf
  obtain ⟨hm, -⟩ | ⟨-, e⟩ := fetch_of_running hr
  · simp [ha] at hm
  · rw [step_of_fetch hr e]
    change exec (decode (s.setIw s.fetchedWord).iw) (s.setIw s.fetchedWord).clearJt = _ at hu
    rw [hu]

/-- A completed step either met a misaligned pc, and only reported it, or executed the word it fetched (R210, R218). -/
theorem step_next_fetch_cases {s t : State} (h : step s = .next t) :
    (aligned4 s.pc = false ∧ t = ((s.report .misalignedAccess s.pc).executing 0#32).endStep) ∨
    (Fetches s s.fetchedWord ∧
      ∃ u, exec (decode s.fetchedWord) (s.executing s.fetchedWord) = .next u ∧ t = u.endStep) := by
  obtain ⟨hr, s1, u, hf, hu, rfl⟩ := step_next_cases h
  obtain ⟨ha, e⟩ | ⟨ha, e⟩ := fetch_of_running hr
  · rw [e] at hf
    cases hf
    rw [State.setIw_iw, decode_zero] at hu
    cases hu
    exact .inl ⟨ha, rfl⟩
  · rw [e] at hf
    cases hf
    exact .inr ⟨⟨hr, ha, rfl⟩, u, hu, rfl⟩

/-! ## What a routine does to pc, the flags and the output trace -/

/-- What a completed routine did to everything but registers, memory and the report log: nothing, or it took its jump, or it was a system
call (R25 to R27, R213). -/
inductive ControlEffect (i : Instr) (s u : State) : Prop where
  | stay (hj : ¬ takesJump i s) (hc : SameControl s u) (ho : u.out = s.out)
  | jump (hj : takesJump i s) (hjt : u.jt = true) (hstop : u.stop = s.stop) (hiw : u.iw = s.iw) (ho : u.out = s.out)
  | system (hi : i = .ecall) (hu : execEcall s = .next u)

section Routines
variable {i : Instr} {s u : State}

/-- A routine that only writes a register. -/
theorem ControlEffect.of_setReg {rd : RegIx} {v : Word} (h : Host.Outcome.next (s.setReg rd v) = (.next u : Result))
    (hj : ¬ takesJump i s) : ControlEffect i s u := by
  cases h
  exact .stay hj ⟨rfl, rfl, rfl, rfl⟩ rfl

theorem ControlEffect.of_execLw {rd rs1 : RegIx} {imm : Word} (h : execLw rd rs1 imm s = .next u) (hj : ¬ takesJump i s) :
    ControlEffect i s u := by
  obtain ⟨-, e⟩ | ⟨-, -, e⟩ | ⟨-, -, e⟩ := execLw_cases rd rs1 imm s <;>
    cases e.symm.trans h <;> exact .stay hj ⟨rfl, rfl, rfl, rfl⟩ rfl

theorem ControlEffect.of_loadByte {extend : Byte → Word} {rd rs1 : RegIx} {imm : Word}
    (h : loadByte extend rd rs1 imm s = .next u) (hj : ¬ takesJump i s) : ControlEffect i s u := by
  obtain ⟨-, e⟩ | ⟨-, e⟩ := loadByte_cases extend rd rs1 imm s
  · cases e.symm.trans h
  · cases e.symm.trans h
    exact .stay hj ⟨rfl, rfl, rfl, rfl⟩ rfl

theorem ControlEffect.of_execSw {rs1 rs2 : RegIx} {imm : Word} (h : execSw rs1 rs2 imm s = .next u) (hj : ¬ takesJump i s) :
    ControlEffect i s u := by
  obtain ⟨-, e⟩ | ⟨-, -, e⟩ | ⟨-, -, e⟩ := execSw_cases rs1 rs2 imm s <;>
    cases e.symm.trans h <;> exact .stay hj ⟨rfl, rfl, rfl, rfl⟩ rfl

theorem ControlEffect.of_execSb {rs1 rs2 : RegIx} {imm : Word} (h : execSb rs1 rs2 imm s = .next u) (hj : ¬ takesJump i s) :
    ControlEffect i s u := by
  obtain ⟨-, e⟩ | ⟨-, e⟩ := execSb_cases rs1 rs2 imm s
  · cases e.symm.trans h
  · cases e.symm.trans h
    exact .stay hj ⟨rfl, rfl, rfl, rfl⟩ rfl

/-- A branch jumps exactly when its comparison holds (R170). -/
theorem ControlEffect.of_branchOp {cond : Word → Word → Bool} {rs1 rs2 : RegIx} {imm : Word}
    (h : branchOp cond rs1 rs2 imm s = .next u) (hcond : cond (s.reg rs1) (s.reg rs2) = true ↔ takesJump i s) :
    ControlEffect i s u := by
  obtain ⟨hc, e⟩ | ⟨hc, e⟩ := branchOp_cases cond rs1 rs2 imm s
  · cases e.symm.trans h
    exact .jump (hcond.mp hc) rfl rfl rfl rfl
  · cases e.symm.trans h
    exact .stay (fun hj => by simp [hcond.mpr hj] at hc) ⟨rfl, rfl, rfl, rfl⟩ rfl

/-- What every completed routine does to pc, the flags and the output trace. -/
theorem exec_controlEffect (h : exec i s = .next u) : ControlEffect i s u := by
  cases i with
  | add rd rs1 rs2 => exact .of_setReg h id
  | sub rd rs1 rs2 => exact .of_setReg h id
  | and rd rs1 rs2 => exact .of_setReg h id
  | or rd rs1 rs2 => exact .of_setReg h id
  | xor rd rs1 rs2 => exact .of_setReg h id
  | sll rd rs1 rs2 => exact .of_setReg h id
  | srl rd rs1 rs2 => exact .of_setReg h id
  | sra rd rs1 rs2 => exact .of_setReg h id
  | slt rd rs1 rs2 => exact .of_setReg h id
  | sltu rd rs1 rs2 => exact .of_setReg h id
  | addi rd rs1 imm => exact .of_setReg h id
  | andi rd rs1 imm => exact .of_setReg h id
  | ori rd rs1 imm => exact .of_setReg h id
  | xori rd rs1 imm => exact .of_setReg h id
  | slli rd rs1 shamt => exact .of_setReg h id
  | srli rd rs1 shamt => exact .of_setReg h id
  | srai rd rs1 shamt => exact .of_setReg h id
  | slti rd rs1 imm => exact .of_setReg h id
  | sltiu rd rs1 imm => exact .of_setReg h id
  | lui rd imm => exact .of_setReg h id
  | auipc rd imm => exact .of_setReg h id
  | lw rd rs1 imm => exact .of_execLw h id
  | lb rd rs1 imm => exact .of_loadByte h id
  | lbu rd rs1 imm => exact .of_loadByte h id
  | sw rs1 rs2 imm => exact .of_execSw h id
  | sb rs1 rs2 imm => exact .of_execSb h id
  | beq rs1 rs2 imm => exact .of_branchOp h beq_iff_eq
  | bne rs1 rs2 imm => exact .of_branchOp h bne_iff_ne
  | bge rs1 rs2 imm => exact .of_branchOp h decide_eq_true_iff
  | bgeu rs1 rs2 imm => exact .of_branchOp h decide_eq_true_iff
  | blt rs1 rs2 imm => exact .of_branchOp h decide_eq_true_iff
  | bltu rs1 rs2 imm => exact .of_branchOp h decide_eq_true_iff
  | jal rd imm => cases h; exact .jump trivial rfl rfl rfl rfl
  | jalr rd rs1 imm => cases h; exact .jump trivial rfl rfl rfl rfl
  | nop => cases h; exact .stay id ⟨rfl, rfl, rfl, rfl⟩ rfl
  | undefined w => cases h; exact .stay id ⟨rfl, rfl, rfl, rfl⟩ rfl
  | ecall => exact .system rfl h

/-- The system call leaves pc, jt and IW alone (R193). -/
theorem execEcall_frame (h : execEcall s = .next u) : u.pc = s.pc ∧ u.jt = s.jt ∧ u.iw = s.iw := by
  obtain ⟨-, e⟩ | ⟨-, -, e⟩ | ⟨-, -, e⟩ | ⟨-, e⟩ | ⟨-, -, -, e⟩ := execEcall_cases s <;>
    cases e.symm.trans h <;> exact ⟨rfl, rfl, rfl⟩

/-- The system call sets stop exactly for `SYS_EXIT` (R27, R199). -/
theorem execEcall_stop_iff (h : execEcall s = .next u) :
    u.stop = true ↔ s.stop = true ∨ s.reg params.syscallNumReg = params.sysExit := by
  change _ ↔ _ ∨ s.reg 17 = 10#32
  obtain ⟨hn, e⟩ | ⟨hn, -, e⟩ | ⟨hn, -, e⟩ | ⟨hn, e⟩ | ⟨-, -, hn, e⟩ := execEcall_cases s <;>
    cases e.symm.trans h <;> simp [hn]

/-- A routine that takes its jump sets jt (R26). -/
theorem exec_jt_of_takesJump (h : exec i s = .next u) (hj : takesJump i s) : u.jt = true := by
  cases exec_controlEffect h with
  | stay hn => exact absurd hj hn
  | jump _ hjt => exact hjt
  | system hi => subst hi; exact hj.elim

/-- A routine that takes no jump leaves pc and jt alone (R25, R26). -/
theorem exec_pc_jt_of_not_takesJump (h : exec i s = .next u) (hn : ¬ takesJump i s) : u.pc = s.pc ∧ u.jt = s.jt := by
  cases exec_controlEffect h with
  | stay _ hc =>
    obtain ⟨hpc, hjt, -, -⟩ := hc
    exact ⟨hpc, hjt⟩
  | jump hj => exact absurd hj hn
  | system _ hu =>
    obtain ⟨hpc, hjt, -⟩ := execEcall_frame hu
    exact ⟨hpc, hjt⟩

/-- Run with jt clear, a routine leaves it set exactly when it takes its jump (R26). -/
theorem exec_jt_iff (h : exec i s = .next u) (hs : s.jt = false) : u.jt = true ↔ takesJump i s := by
  refine ⟨fun hu => ?_, exec_jt_of_takesJump h⟩
  by_contra hn
  obtain ⟨-, hjt⟩ := exec_pc_jt_of_not_takesJump h hn
  simp [hjt, hs] at hu

/-- No routine but the system call's touches stop or the output trace (R213). -/
theorem exec_stop_out_of_ne_ecall (h : exec i s = .next u) (hi : i ≠ .ecall) : u.stop = s.stop ∧ u.out = s.out := by
  cases exec_controlEffect h with
  | stay _ hc ho =>
    obtain ⟨-, -, hstop, -⟩ := hc
    exact ⟨hstop, ho⟩
  | jump _ _ hstop _ ho => exact ⟨hstop, ho⟩
  | system he => exact absurd he hi

/-- Stop is set after a routine exactly when it was set or the routine was the terminating system call (R27). -/
theorem exec_stop_iff (h : exec i s = .next u) :
    u.stop = true ↔ s.stop = true ∨ i = .ecall ∧ s.reg params.syscallNumReg = params.sysExit := by
  by_cases hi : i = .ecall
  · subst hi
    simpa using execEcall_stop_iff h
  · obtain ⟨hstop, -⟩ := exec_stop_out_of_ne_ecall h hi
    simp [hstop, hi]

/-- Whether a jump is taken depends on the registers alone. -/
theorem takesJump_congr {t : State} (h : SameRegs s t) (i : Instr) : takesJump i t ↔ takesJump i s := by
  cases i <;> simp only [takesJump, h _]

end Routines

end Sys2Proof.Machine
end

section
/-! The statements on the state: registers, the stop flag, the run state and the program counter (10_state.md R21, R25, R27, R28). -/

namespace Sys2Proof.Machine

/-- Settles O37: the register laws of the model, and `endStep` clears the cell of x0 (R214). -/
theorem registerZeroAndReads : Obligations.RegisterZeroAndReads := by
  refine ⟨State.reg_zero, fun s i hi => if_neg hi, fun s i j v => ?_, by decide, fun s t h => ?_⟩
  · rw [State.reg_setReg]
    exact if_congr (and_congr_right fun hji => by rw [hji]) rfl rfl
  · obtain ⟨-, -, u, -, -, rfl⟩ := step_next_cases h
    exact u.endStep_cell

/-- A step sets stop exactly when the word it executes is the terminating system call (R27). -/
theorem step_stop_iff {s t : State} (h : step s = .next t) :
    t.stop = true ↔ aligned4 s.pc = true ∧ decode s.fetchedWord = .ecall ∧ s.reg params.syscallNumReg = params.sysExit := by
  obtain ⟨hr, -⟩ := step_next_cases h
  obtain ⟨hstop, -⟩ := (running_iff s).mp hr
  obtain ⟨ha, rfl⟩ | ⟨⟨-, ha, -⟩, u, hu, rfl⟩ := step_next_fetch_cases h
  · simp [ha, hstop]
  · rw [State.endStep_stop, exec_stop_iff hu]
    simp [ha, hstop]

/-- Settles O38: a completed step was Running, so stop was clear, and only the terminating system call sets it. -/
theorem onlyExitStops : Obligations.OnlyExitStops := by
  refine ⟨rfl, fun s t h => ?_, fun s hs t => ?_⟩
  · obtain ⟨hr, -⟩ := step_next_cases h
    obtain ⟨hstop, -⟩ := (running_iff s).mp hr
    exact ⟨hstop, step_stop_iff h⟩
  · exact step_ne_next_of_not_running ((not_running_iff s).mpr (.inl hs)) t

/-- Settles O40: a routine that takes no jump leaves pc where it was, and `endStep` advances pc exactly when jt is clear. -/
theorem pcAdvancesUnlessJumpTaken : Obligations.PcAdvancesUnlessJumpTaken := by
  intro s t u w hf ht hu
  obtain rfl : u.endStep = t := Host.Outcome.next.inj ((step_of_exec_next hf hu).symm.trans ht)
  have hjump : u.jt = true ↔ takesJump (decode w) (s.executing w) := exec_jt_iff hu (s.executing_jt w)
  refine ⟨fun hjt => ?_, fun hjt => ?_, hjump.trans (takesJump_congr (s.executing_reg w) _)⟩
  · simp [hjt]
  · have hn : ¬ takesJump (decode w) (s.executing w) := by simp [← hjump, hjt]
    obtain ⟨hpc, -⟩ := exec_pc_jt_of_not_takesJump hu hn
    simp [hjt, hpc]

/-- A Stopped state reaches only itself (R28, R217). -/
theorem Reaches.eq_of_not_running {s t : State} (h : Reaches s t) (hs : s.running = false) : t = s := by
  induction h with
  | start => rfl
  | step _ hstep ih =>
    subst ih
    exact absurd hstep (step_ne_next_of_not_running hs _)

/-- Settles O39: the run state is `running` read as a name, and a state that is not running has no step. -/
theorem stoppedIsTerminal : Obligations.StoppedIsTerminal := by
  refine ⟨fun s => ?_, fun s => ?_, by decide, fun s hs => ?_⟩
  · rw [runState_stopped_iff, not_running_iff]
  · rw [runState_running_iff, running_iff]
  · have hr : s.running = false := (runState_stopped_iff s).mp hs
    exact ⟨step_ne_next_of_not_running hr, fun t ht => ht.eq_of_not_running hr⟩

end Sys2Proof.Machine
end

section
/-! SUPPORT. MemRead(ra, 4) with its checks as arithmetic on the address, and the load and store routines by what the memory access they
make answers (20_memory.md R42, R44, R48). -/

namespace Sys2Proof.Machine

/-! ## MemRead(ra, 4), by the address as a natural -/

theorem memReadWord_of_misaligned {ra : Word} (h : uint ra % 4 ≠ 0) (s : State) :
    memReadWord ra s = .ok (0#32, s.report .misalignedAccess ra) :=
  if_neg (mt (aligned4_iff ra).mp h)

theorem memReadWord_of_inRange {ra : Word} (ha : uint ra % 4 = 0) (hr : uint ra < 16384) (s : State) :
    memReadWord ra s = .ok (s.mem.wordAt (uint ra / 4), s) := by
  simp [memReadWord, (aligned4_iff ra).mpr ha, (inRange_iff ra).mpr hr, wordIndex_eq]

theorem memReadWord_of_outOfRange {ra : Word} (ha : uint ra % 4 = 0) (hr : 16384 ≤ uint ra) (s : State) :
    memReadWord ra s = .error (.outOfRange ra) := by
  have hn : ¬ inRange ra = true := mt (inRange_iff ra).mp (Nat.not_lt.mpr hr)
  simp [memReadWord, (aligned4_iff ra).mpr ha, hn]

/-! ## The routines, by what the memory access answers -/

/-- The register written reads the value written, but for x0 (R21, R22). -/
theorem State.reg_setReg_same (s : State) (r : RegIx) (v : Word) : (s.setReg r v).reg r = if r = 0 then 0#32 else v := by
  by_cases h : r = 0
  · simp [h]
  · simp [State.reg_setReg, h]

theorem loadByte_of_memReadByte {rs1 : RegIx} {imm : Word} {s : State} {b : Byte}
    (h : memReadByte (effectiveAddr rs1 imm s) s = .ok b) (extend : Byte → Word) (rd : RegIx) :
    loadByte extend rd rs1 imm s = .next (s.setReg rd (extend b)) := by
  simp [loadByte, h]

theorem execSw_eq_next_iff (rs1 rs2 : RegIx) (imm : Word) (s t : State) :
    execSw rs1 rs2 imm s = .next t ↔ memWriteWord (effectiveAddr rs1 imm s) (s.reg rs2) s = .ok t := by
  unfold execSw
  cases memWriteWord (effectiveAddr rs1 imm s) (s.reg rs2) s <;> simp

theorem execSb_eq_next_iff (rs1 rs2 : RegIx) (imm : Word) (s t : State) :
    execSb rs1 rs2 imm s = .next t ↔ memWriteByte (s.reg rs1) imm ((s.reg rs2).extractLsb' 0 8) s = .ok t := by
  unfold execSb storeByteWith memWriteByte
  cases memWriteByteWith params (s.reg rs1) imm ((s.reg rs2).extractLsb' 0 8) s <;> simp

/-- The low byte of a word is its value modulo 256. -/
theorem lowByte_eq (v : Word) : v.extractLsb' 0 8 = BitVec.ofNat 8 (uint v % 256) := by
  apply BitVec.eq_of_toNat_eq
  simp [BitVec.extractLsb'_toNat]

end Sys2Proof.Machine
end

section
/-! The statements on the memory accesses of loads and stores (20_memory.md R42, R44, R48). -/

namespace Sys2Proof.Machine

/-- Settles O27: the alignment check decides first, the range check only at aligned addresses. -/
theorem wordReadChecksAlignmentFirst : Obligations.WordReadChecksAlignmentFirst := by
  intro base off s
  exact ⟨rfl, fun hm => ⟨_, memReadWord_of_misaligned hm s, rfl⟩, fun ha hr => memReadWord_of_inRange ha hr s,
    fun ha hr => memReadWord_of_outOfRange ha hr s⟩

/-- Settles O28: both byte loads are `loadByte`, which writes the extension of the byte MemRead gives. -/
theorem byteReadersExtend : Obligations.ByteReadersExtend := by
  intro s rd rs1 imm b hb
  refine ⟨⟨_, loadByte_of_memReadByte hb _ rd, ?_⟩, ⟨_, loadByte_of_memReadByte hb _ rd, ?_⟩⟩
  · exact s.reg_setReg_same rd (b.signExtend 32)
  · rw [BitVec.ofNat_toNat]
    exact s.reg_setReg_same rd (b.zeroExtend 32)

/-- Settles O29: each store routine completes exactly as its memory write does, and the byte it passes is the register modulo 256. -/
theorem storesPassLowByteOrWord : Obligations.StoresPassLowByteOrWord := by
  intro s t rs1 rs2 imm
  rw [← lowByte_eq]
  exact ⟨execSb_eq_next_iff rs1 rs2 imm s t, execSw_eq_next_iff rs1 rs2 imm s t⟩

end Sys2Proof.Machine
end

section
/-! SUPPORT. The bits of a field, of a mask and of an insert-field, and what an immediate's algorithm is made of: a right shift as an
extended field, and a shifted source of an insert-field as the field it copies (30_encoding.md R61, R63 to R68). -/

namespace Sys2Proof

@[simp] theorem bitField_getLsbD (w : Word) (lo n i : Nat) :
    (bitField w lo n).getLsbD i = (decide (i < n) && w.getLsbD (lo + i)) := by
  simp [bitField]

@[simp] theorem bitField_getElem (w : Word) (lo n : Nat) {i : Nat} (hi : i < n) :
    (bitField w lo n)[i] = w.getLsbD (lo + i) := by
  simp [bitField]

/-- A mask of n ones is 2^n − 1, also where n exceeds the width (R64). -/
theorem lowMask_eq (n : Nat) : lowMask n = BitVec.ofNat 32 (2 ^ n - 1) := by
  have hpow : 1#32 <<< n = BitVec.ofNat 32 (2 ^ n) := by
    apply BitVec.eq_of_toNat_eq
    simp [Nat.one_shiftLeft]
  rw [lowMask, hpow, BitVec.ofNat_sub_ofNat_of_le _ _ (by decide) Nat.one_le_two_pow]

@[simp] theorem lowMask_getElem (n : Nat) {i : Nat} (hi : i < 32) : (lowMask n)[i] = decide (i < n) := by
  rw [← BitVec.getLsbD_eq_getElem hi, lowMask_eq, BitVec.getLsbD_ofNat, Nat.testBit_two_pow_sub_one]
  simp [hi]

/-- The bits of `insert(base, lo, n, src)` (R64). -/
theorem insertField_getLsbD (base src : Word) (lo n : Nat) {i : Nat} (hi : i < 32) :
    (insertField base lo n src).getLsbD i = if lo ≤ i ∧ i < lo + n then src.getLsbD (i - lo) else base.getLsbD i := by
  rcases Nat.lt_or_ge i lo with h | h
  · simp [insertField, hi, h, Nat.not_le.mpr h]
  · have hn : i < lo + n ↔ i - lo < n := by omega
    have hlt : i - lo < 32 := by omega
    by_cases hin : i - lo < n <;> simp [insertField, hi, h, Nat.not_lt.mpr h, hlt, hn, hin]

/-- An insert-field reads only the low n bits of its source, so a source shifted down to a field is that field (R64). -/
theorem insertField_ushiftRight (base w : Word) (lo n k : Nat) :
    insertField base lo n (w >>> k) = insertField base lo n ((bitField w k n).zeroExtend 32) := by
  apply BitVec.eq_of_getLsbD_eq
  intro i hi
  rw [insertField_getLsbD _ _ _ _ hi, insertField_getLsbD _ _ _ _ hi]
  refine ite_congr rfl (fun ⟨hlo, hn⟩ => ?_) (fun _ => rfl)
  have hlt : i - lo < 32 := by omega
  have hin : i - lo < n := by omega
  simp [hlt, hin]

/-- A logical right shift is the zero extension of the bits it keeps (R67). -/
theorem ushiftRight_eq_zeroExtend_bitField (w : Word) {lo n : Nat} (h : lo + n = 32) :
    w >>> lo = (bitField w lo n).zeroExtend 32 := by
  apply BitVec.eq_of_getLsbD_eq
  intro i hi
  by_cases hin : i < n
  · simp [hi, hin]
  · simp [hi, hin, show 32 ≤ lo + i by omega]

/-- An arithmetic right shift is the sign extension of the bits it keeps (R63, R68). -/
theorem sshiftRight_eq_signExtend_bitField (w : Word) {lo n : Nat} (h : lo + n = 32) (hn : 0 < n) :
    w.sshiftRight lo = (bitField w lo n).signExtend 32 := by
  have hmsb : (bitField w lo n).msb = w.msb := by
    simp [BitVec.msb_eq_getLsbD_last, hn, show lo + (n - 1) = 31 by omega]
  apply BitVec.eq_of_getLsbD_eq
  intro i hi
  rw [BitVec.getLsbD_sshiftRight, BitVec.getLsbD_signExtend, hmsb, bitField_getLsbD]
  by_cases hin : i < n
  · simp [hi, hin, show lo + i < 32 by omega]
  · simp [hi, hin, show ¬ lo + i < 32 by omega]

/-! ## The immediates -/

/-- The I immediate (R63). -/
theorem immIOf_eq_signExtend (w : Word) : immIOf w = (bitField w 20 12).signExtend 32 :=
  sshiftRight_eq_signExtend_bitField w rfl (by decide)

/-- The S immediate's 12 bits, field by field (R65): the insert decides bits 4:0, the I immediate the others. -/
theorem immSOf_eq_signExtend (w : Word) :
    immSOf w = (bitField w 25 7 ++ bitField w 7 5 : BitVec 12).signExtend 32 := by
  apply BitVec.eq_of_getLsbD_eq
  intro i hi
  rw [immSOf, insertField_getLsbD _ _ _ _ hi, immIOf_eq_signExtend]
  simp only [BitVec.getLsbD_signExtend, BitVec.msb_eq_getLsbD_last, BitVec.getLsbD_append, bitField_getLsbD]
  interval_cases i <;> simp

/-- The UJ immediate's 21 bits, field by field (R68): the base fills in bit 20 and the sign, and no later insert overlaps an earlier one. -/
theorem immJOf_eq_signExtend (w : Word) :
    immJOf w =
      (bitField w 31 1 ++ bitField w 12 8 ++ bitField w 20 1 ++ bitField w 21 10 ++ 0#1 : BitVec 21).signExtend 32 := by
  apply BitVec.eq_of_getLsbD_eq
  intro i hi
  rw [immJOf, sshiftRight_eq_signExtend_bitField w (n := 21) rfl (by decide)]
  simp only [insertField_getLsbD _ _ _ _ hi, BitVec.getLsbD_signExtend, BitVec.msb_eq_getLsbD_last, BitVec.getLsbD_append,
    bitField_getLsbD]
  interval_cases i <;> simp

end Sys2Proof
end

section
/-! The statements on the insert-field primitive and the immediates (30_encoding.md R63 to R65, R67, R68). -/

namespace Sys2Proof

/-- Settles O2: the mask and the shift, read bit by bit. -/
theorem insertFieldReplacesBits : Obligations.InsertFieldReplacesBits :=
  fun base src lo n _ hi => insertField_getLsbD base src lo n hi

/-- Settles O3: each algorithm inserts fields of the word, and its result is the sign extension of the fields' concatenation. -/
theorem immediatesMatchBitFields : Obligations.ImmediatesMatchBitFields := by
  intro w
  refine ⟨⟨rfl, immIOf_eq_signExtend w⟩, ⟨insertField_ushiftRight _ w 0 5 7, immSOf_eq_signExtend w⟩, ?_, ?_,
    immJOf_eq_signExtend w⟩
  · exact ushiftRight_eq_zeroExtend_bitField w rfl
  · simp only [immJOf, insertField_ushiftRight]

end Sys2Proof
end

section
/-! SUPPORT. What a step leaves when its routine writes one register, and the register-immediate group's decode by funct3
(30_encoding.md R75; 41_integer_immediate.md R120; 46_control_loop.md R213 to R215). -/

namespace Sys2Proof.Machine

/-! ## The state a routine runs on -/

@[simp] theorem State.executing_iw (s : State) (w : Word) : (s.executing w).iw = w := rfl
@[simp] theorem State.executing_mem (s : State) (w : Word) : (s.executing w).mem = s.mem := rfl
@[simp] theorem State.executing_out (s : State) (w : Word) : (s.executing w).out = s.out := rfl
@[simp] theorem State.executing_log (s : State) (w : Word) : (s.executing w).log = s.log := rfl

/-! ## A step whose routine only writes a register -/

/-- The routine leaves jt clear, so the step ends by advancing pc; only rd, pc and IW have changed (R213 to R215). -/
theorem stepWrites_of_exec_setReg {s : State} {w v : Word} {i : Instr} {rd : RegIx} (hf : Fetches s w) (hd : decode w = i)
    (hi : exec i (s.executing w) = .next ((s.executing w).setReg rd v)) : StepWrites s w rd v := by
  subst hd
  refine ⟨_, step_of_exec_next hf hi, fun r => ?_, ?_⟩
  · rw [State.endStep_reg, State.reg_setReg, State.executing_reg]
  · simp [SameMem, SameLogs]

/-- A truth value of the signed comparison, as the spec's `cond ? 1 : 0` (R110, R128). -/
theorem boolWord_ltSigned (a b : Word) : boolWord (ltSigned a b) = if sint a < sint b then 1#32 else 0#32 := by
  simp [boolWord, ltSigned]

/-! ## The register-immediate group's decode -/

/-- The register-immediate opcode selects its group, and funct3 the group's row (R73, R75). -/
theorem decode_of_opImmediate {w : Word} {f3 : BitVec 3} (hop : opcodeOf w = 0b0010011#7) (h3 : funct3Of w = f3) :
    decode w = assemble (immediateGroupWith params f3 (funct7Of w)) (decodeFieldsWith params w) w := by
  rw [decode, decodeWith, idOfWith, hop, h3]
  rfl

end Sys2Proof.Machine
end

section
/-! The statement on fetched words of andi, ori, xori and slti (41_integer_immediate.md R122 to R124, R128). -/

namespace Sys2Proof.Machine

/-- Settles O31: funct3 fixes the decoded instruction, whose routine only writes rd, and the word's immediate is the I immediate of R63. -/
theorem immediateLogicWordsExecute : Obligations.ImmediateLogicWordsExecute := by
  intro s w hf hop
  rw [← immIOf_eq_signExtend]
  refine ⟨fun h3 => ?andi, fun h3 => ?ori, fun h3 => ?xori, fun h3 => ?slti⟩
  case andi =>
    have hd : decode w = .andi (rdOf w) (rs1Of w) (immIOf w) := decode_of_opImmediate hop h3
    exact stepWrites_of_exec_setReg hf hd rfl
  case ori =>
    have hd : decode w = .ori (rdOf w) (rs1Of w) (immIOf w) := decode_of_opImmediate hop h3
    exact stepWrites_of_exec_setReg hf hd rfl
  case xori =>
    have hd : decode w = .xori (rdOf w) (rs1Of w) (immIOf w) := decode_of_opImmediate hop h3
    exact stepWrites_of_exec_setReg hf hd rfl
  case slti =>
    have hd : decode w = .slti (rdOf w) (rs1Of w) (immIOf w) := decode_of_opImmediate hop h3
    rw [← boolWord_ltSigned]
    exact stepWrites_of_exec_setReg hf hd rfl

end Sys2Proof.Machine
end

section
/-! SUPPORT. The decode of lui by its opcode alone and the value its routine writes (30_encoding.md R67, R79; 42_upper_immediate.md
R140). -/

namespace Sys2Proof.Machine

/-- The lui opcode decides the instruction: funct3 is not examined (R79, R140). -/
theorem decode_of_opLui {w : Word} (hop : opcodeOf w = 0b0110111#7) : decode w = .lui (rdOf w) (immUOf w) := by
  rw [decode, decodeWith, idOfWith, hop]
  rfl

/-- Shifting the U immediate back up clears the low twelve bits and keeps the others of the word (R67, R140). -/
theorem upperValue_immUOf (w : Word) : upperValue (immUOf w) = bitField w 12 20 ++ 0#12 := by
  apply BitVec.eq_of_getLsbD_eq
  intro i hi
  rw [upperValue, immUOf, BitVec.getLsbD_append, bitField_getLsbD]
  by_cases hlow : i < 12
  · simp [hlow]
  · simp [hi, hlow, show i - 12 < 20 by omega]

end Sys2Proof.Machine
end

section
/-! The statement on fetched words of lui (42_upper_immediate.md R140). -/

namespace Sys2Proof.Machine

/-- Settles O32: the opcode alone decodes to lui, whose routine only writes rd with the shifted U immediate. -/
theorem luiWordsExecute : Obligations.LuiWordsExecute := by
  intro s w hf hop
  rw [← upperValue_immUOf]
  exact stepWrites_of_exec_setReg hf (decode_of_opLui hop) rfl

end Sys2Proof.Machine
end

section
/-! SUPPORT. The branch immediate's bits, the branch group's decode by funct3, and what a step leaves when its routine is a branch
(30_encoding.md R66, R78; 44_control_transfer.md R170; 46_control_loop.md R213 to R215). -/

namespace Sys2Proof

/-- The machine's branch immediate, field by field (R66): the S immediate's bit 0, which is word bit 7, moves to bit 11, and bit 0 is
cleared. -/
theorem immBOf_eq_signExtend (w : Word) :
    immBOfWith params w =
      (bitField w 31 1 ++ bitField w 7 1 ++ bitField w 25 6 ++ bitField w 8 4 ++ 0#1 : BitVec 13).signExtend 32 := by
  change insertField (insertField (immSOf w) 11 1 (immSOf w)) 0 1 0#32 = _
  apply BitVec.eq_of_getLsbD_eq
  intro i hi
  rw [immSOf_eq_signExtend]
  simp only [insertField_getLsbD _ _ _ _ hi, BitVec.getLsbD_signExtend, BitVec.msb_eq_getLsbD_last, BitVec.getLsbD_append,
    bitField_getLsbD]
  interval_cases i <;> simp

namespace Machine

/-- The branch opcode selects its group, and funct3 the group's row (R73, R78). -/
theorem decode_of_opBranch {w : Word} {f3 : BitVec 3} (hop : opcodeOf w = 0b1100011#7) (h3 : funct3Of w = f3) :
    decode w = assemble (branchGroup f3) (decodeFieldsWith params w) w := by
  rw [decode, decodeWith, idOfWith, hop, h3]
  rfl

/-- A taken branch sets jt, so the step ends with its target in pc; an untaken one leaves jt clear, so the step ends by advancing pc; only
pc and IW have changed (R170, R213 to R215). -/
theorem stepBranches_of_exec_branchOp {s : State} {w : Word} {i : Instr} {cmp : Word → Word → Bool} {cond : Prop} (hf : Fetches s w)
    (hd : decode w = i)
    (hi : exec i (s.executing w) = branchOp cmp (rs1Of w) (rs2Of w) (immBOfWith params w) (s.executing w))
    (hcond : cmp (s.reg (rs1Of w)) (s.reg (rs2Of w)) = true ↔ cond) : StepBranches s w cond := by
  subst hd
  rw [StepBranches, ← immBOf_eq_signExtend, ← hcond]
  obtain ⟨hc, e⟩ | ⟨hc, e⟩ := branchOp_cases cmp (rs1Of w) (rs2Of w) (immBOfWith params w) (s.executing w)
  all_goals
    simp only [State.executing_reg] at hc
    refine ⟨_, _, hi.trans e, ?_, step_of_exec_next hf (hi.trans e), ?_⟩
    · simp [hc]
    · simp [hc, SameRegs, SameMem, SameLogs]

end Machine

end Sys2Proof
end

section
/-! The statement on fetched words of the branch group (44_control_transfer.md R170 to R176). -/

namespace Sys2Proof.Machine

/-- Settles O33: funct3 fixes the decoded branch, whose routine is R170's template over the comparison the statement names. -/
theorem branchWordsExecute : Obligations.BranchWordsExecute := by
  intro s w hf hop
  refine ⟨fun h3 => ?beq, fun h3 => ?bne, fun h3 => ?bge, fun h3 => ?bgeu, fun h3 => ?blt, fun h3 => ?bltu⟩
  case beq =>
    have hd : decode w = .beq (rs1Of w) (rs2Of w) (immBOfWith params w) := decode_of_opBranch hop h3
    exact stepBranches_of_exec_branchOp hf hd rfl beq_iff_eq
  case bne =>
    have hd : decode w = .bne (rs1Of w) (rs2Of w) (immBOfWith params w) := decode_of_opBranch hop h3
    exact stepBranches_of_exec_branchOp hf hd rfl bne_iff_ne
  case bge =>
    have hd : decode w = .bge (rs1Of w) (rs2Of w) (immBOfWith params w) := decode_of_opBranch hop h3
    exact stepBranches_of_exec_branchOp hf hd rfl decide_eq_true_iff
  case bgeu =>
    have hd : decode w = .bgeu (rs1Of w) (rs2Of w) (immBOfWith params w) := decode_of_opBranch hop h3
    exact stepBranches_of_exec_branchOp hf hd rfl decide_eq_true_iff
  case blt =>
    have hd : decode w = .blt (rs1Of w) (rs2Of w) (immBOfWith params w) := decode_of_opBranch hop h3
    exact stepBranches_of_exec_branchOp hf hd rfl decide_eq_true_iff
  case bltu =>
    have hd : decode w = .bltu (rs1Of w) (rs2Of w) (immBOfWith params w) := decode_of_opBranch hop h3
    exact stepBranches_of_exec_branchOp hf hd rfl decide_eq_true_iff

end Sys2Proof.Machine
end

section
/-! SUPPORT. The decode of an unrecognised word, and the system call with an unsupported number (30_encoding.md R84; 45_noop_system.md
R194). -/

namespace Sys2Proof

/-- An unrecognised word decodes to the undefined instruction that holds it (R84). -/
theorem decode_of_unrecognised {w : Word} (h : unrecognised w = true) : decode w = .undefined w := by
  rw [decode, decodeWith, id_of_unrecognised h]
  rfl

namespace Machine

/-- A number that is none of the three changes nothing (R194). -/
theorem execEcall_of_unsupported {s : State}
    (h : s.reg params.syscallNumReg ∉ [params.sysPrintInt, params.sysPrintMemWord, params.sysExit]) : execEcall s = .next s := by
  simp only [List.mem_cons, List.not_mem_nil, or_false, not_or] at h
  obtain ⟨hprint, hword, hexit⟩ := h
  rw [execEcall, if_neg hprint, if_neg hword, if_neg hexit]

end Machine

end Sys2Proof
end

section
/-! The statements on fetched undefined words and unsupported system calls (45_noop_system.md R191, R194; 60_exceptions.md R234, R235). -/

namespace Sys2Proof.Machine

/-- Settles O34: the word decodes to the undefined instruction, whose routine only appends its report and leaves jt clear. -/
theorem undefinedWordsAreReportedNoOps : Obligations.UndefinedWordsAreReportedNoOps := by
  intro s w hf hw
  have hu : exec (decode w) (s.executing w) = .next ((s.executing w).report .undefinedInstruction w) := by
    rw [decode_of_unrecognised hw]
    rfl
  refine ⟨_, step_of_exec_next hf hu, ?_⟩
  simp [SameRegs, SameMem]

/-- Settles O35: the routine answers the state it is given, so the step only fetches and advances pc. -/
theorem unsupportedSyscallIsIgnored : Obligations.UnsupportedSyscallIsIgnored := by
  intro s w hf hd hn
  have hu : exec (decode w) (s.executing w) = .next (s.executing w) := by
    rw [hd]
    exact execEcall_of_unsupported hn
  refine ⟨execEcall_of_unsupported hn, _, step_of_exec_next hf hu, ?_⟩
  simp [SameRegs, SameMem, SameLogs]

end Sys2Proof.Machine
end

section
/-! SUPPORT. What an instruction's routine does to the registers and the memory, and that it only appends to the two logs
(10_state.md R23; 46_control_loop.md R213). -/

namespace Sys2Proof.Machine

/-- What a completed routine did to registers and memory: nothing, or it wrote its destination register, or it is a store that reached the
storage and wrote there (R213). -/
inductive DataEffect (i : Instr) (s u : State) : Prop where
  | keep (hr : SameRegs s u) (hm : SameMem s u)
  | writeReg {rd : RegIx} {v : Word} (hd : destReg i = some rd) (hr : WritesReg rd v s u) (hm : SameMem s u)
  | storeWord {rs1 rs2 : RegIx} {imm : Word} (hi : i = .sw rs1 rs2 imm) (ha : aligned4 (effectiveAddr rs1 imm s) = true)
      (hr : SameRegs s u) (hm : SameMemOutside (4 * wordIndex (effectiveAddr rs1 imm s)) 4 s u)
  | storeByte {rs1 rs2 : RegIx} {imm : Word} (hi : i = .sb rs1 rs2 imm) (hr : SameRegs s u)
      (hm : SameMemOutside (storeByteAddr (s.reg rs1) imm) 1 s u)

section Routines
variable {i : Instr} {s u : State}

/-! ## One routine at a time -/

/-- A routine that only writes its destination register. -/
theorem DataEffect.of_setReg {rd : RegIx} {v : Word} (h : Host.Outcome.next (s.setReg rd v) = (.next u : Result))
    (hd : destReg i = some rd) : DataEffect i s u := by
  cases h
  exact .writeReg hd (s.reg_setReg rd v) fun _ => rfl

theorem DataEffect.of_execLw {rd rs1 : RegIx} {imm : Word} (h : execLw rd rs1 imm s = .next u) (hd : destReg i = some rd) :
    DataEffect i s u := by
  obtain ⟨-, e⟩ | ⟨-, -, e⟩ | ⟨-, -, e⟩ := execLw_cases rd rs1 imm s
  · cases e.symm.trans h
    exact .writeReg hd (State.reg_setReg _ rd 0#32) fun _ => rfl
  · cases e.symm.trans h
  · exact .of_setReg (e.symm.trans h) hd

theorem DataEffect.of_loadByte {extend : Byte → Word} {rd rs1 : RegIx} {imm : Word}
    (h : loadByte extend rd rs1 imm s = .next u) (hd : destReg i = some rd) : DataEffect i s u := by
  obtain ⟨-, e⟩ | ⟨-, e⟩ := loadByte_cases extend rd rs1 imm s
  · cases e.symm.trans h
  · exact .of_setReg (e.symm.trans h) hd

/-- A word store writes no byte outside its word (R45). -/
theorem sameMemOutside_setWordAt (s : State) (k : Nat) (v : Word) :
    SameMemOutside (4 * k) 4 s (s.setMem (s.mem.setWordAt k v)) := by
  intro b hb
  rw [State.setMem_mem, Memory.get_setWordAt, if_neg (by omega), if_neg (by omega), if_neg (by omega), if_neg (by omega)]

/-- A byte store writes its own byte alone (R47). -/
theorem sameMemOutside_set (s : State) (a : Nat) (v : Byte) : SameMemOutside a 1 s (s.setMem (s.mem.set a v)) :=
  fun _ hb => Memory.get_set_other s.mem v (by omega)

/-- A misaligned sw only reports; an aligned one inside the storage writes its word (R154). -/
theorem DataEffect.of_execSw {rs1 rs2 : RegIx} {imm : Word} (h : execSw rs1 rs2 imm s = .next u) :
    DataEffect (.sw rs1 rs2 imm) s u := by
  obtain ⟨-, e⟩ | ⟨-, -, e⟩ | ⟨ha, -, e⟩ := execSw_cases rs1 rs2 imm s
  · cases e.symm.trans h
    exact .keep (fun _ => rfl) fun _ => rfl
  · cases e.symm.trans h
  · cases e.symm.trans h
    exact .storeWord rfl ha (fun _ => rfl) (sameMemOutside_setWordAt s _ _)

theorem DataEffect.of_execSb {rs1 rs2 : RegIx} {imm : Word} (h : execSb rs1 rs2 imm s = .next u) :
    DataEffect (.sb rs1 rs2 imm) s u := by
  obtain ⟨-, e⟩ | ⟨-, e⟩ := execSb_cases rs1 rs2 imm s
  · cases e.symm.trans h
  · cases e.symm.trans h
    refine .storeByte rfl (fun _ => rfl) ?_
    rw [storeByteAddr_eq]
    exact sameMemOutside_set s _ _

theorem DataEffect.of_branchOp {cond : Word → Word → Bool} {rs1 rs2 : RegIx} {imm : Word}
    (h : branchOp cond rs1 rs2 imm s = .next u) : DataEffect i s u := by
  obtain ⟨-, e⟩ | ⟨-, e⟩ := branchOp_cases cond rs1 rs2 imm s <;>
    cases e.symm.trans h <;> exact .keep (fun _ => rfl) fun _ => rfl

theorem DataEffect.of_execEcall (h : execEcall s = .next u) : DataEffect i s u := by
  obtain ⟨-, e⟩ | ⟨-, -, e⟩ | ⟨-, -, e⟩ | ⟨-, e⟩ | ⟨-, -, -, e⟩ := execEcall_cases s <;>
    cases e.symm.trans h <;> exact .keep (fun _ => rfl) fun _ => rfl

/-! ## Every routine -/

/-- What every completed routine does to registers and memory. -/
theorem exec_dataEffect (h : exec i s = .next u) : DataEffect i s u := by
  cases i with
  | add | sub | and | or | xor | sll | srl | sra | slt | sltu => exact .of_setReg h rfl
  | addi | andi | ori | xori | slli | srli | srai | slti | sltiu => exact .of_setReg h rfl
  | lui | auipc => exact .of_setReg h rfl
  | lw => exact .of_execLw h rfl
  | lb | lbu => exact .of_loadByte h rfl
  | sw => exact .of_execSw h
  | sb => exact .of_execSb h
  | beq | bne | bge | bgeu | blt | bltu => exact .of_branchOp h
  | jal rd | jalr rd => cases h; exact .writeReg rfl (s.reg_setReg rd (linkValue s)) fun _ => rfl
  | nop | undefined => cases h; exact .keep (fun _ => rfl) fun _ => rfl
  | ecall => exact .of_execEcall h

/-- A routine writes no register but its destination (R23, R213). -/
theorem exec_reg_of_ne_destReg (h : exec i s = .next u) {r : RegIx} (hr : destReg i ≠ some r) : u.reg r = s.reg r := by
  cases exec_dataEffect h with
  | keep hs => exact hs r
  | writeReg hd hw =>
    have hne : ¬ (r = _ ∧ r ≠ 0) := fun ⟨e, _⟩ => hr (e ▸ hd)
    exact (hw r).trans (if_neg hne)
  | storeWord _ _ hs => exact hs r
  | storeByte _ hs => exact hs r

/-- No routine but a store's touches memory (R51, R213). -/
theorem exec_sameMem_of_ne_store (h : exec i s = .next u) (hsw : ∀ rs1 rs2 imm, i ≠ .sw rs1 rs2 imm)
    (hsb : ∀ rs1 rs2 imm, i ≠ .sb rs1 rs2 imm) : SameMem s u := by
  cases exec_dataEffect h with
  | keep _ hm => exact hm
  | writeReg _ _ hm => exact hm
  | storeWord hi => exact absurd hi (hsw _ _ _)
  | storeByte hi => exact absurd hi (hsb _ _ _)

/-- sw writes its word alone, and nothing when misaligned (R154). -/
theorem exec_sw_mem {rs1 rs2 : RegIx} {imm : Word} (h : exec (.sw rs1 rs2 imm) s = .next u) :
    (uint (effectiveAddr rs1 imm s) % 4 ≠ 0 → SameMem s u) ∧
      SameMemOutside (4 * wordIndex (effectiveAddr rs1 imm s)) 4 s u := by
  cases exec_dataEffect h with
  | keep _ hm => exact ⟨fun _ => hm, fun a _ => hm a⟩
  | writeReg hd => cases hd
  | storeWord hi ha _ hm =>
    cases hi
    exact ⟨fun hn => absurd ((aligned4_iff _).mp ha) hn, hm⟩
  | storeByte hi => cases hi

/-- sb writes its byte alone (R155). -/
theorem exec_sb_mem {rs1 rs2 : RegIx} {imm : Word} (h : exec (.sb rs1 rs2 imm) s = .next u) :
    SameMemOutside (storeByteAddr (s.reg rs1) imm) 1 s u := by
  cases exec_dataEffect h with
  | keep _ hm => exact fun a _ => hm a
  | writeReg hd => cases hd
  | storeWord hi => cases hi
  | storeByte hi _ hm =>
    cases hi
    exact hm

/-- No routine writes IW. -/
theorem exec_iw (h : exec i s = .next u) : u.iw = s.iw := by
  have he : Effect s (.next u) := h ▸ exec_effect i s
  cases he <;> rfl

/-- A routine only appends to the output trace (R196). -/
theorem exec_out_prefix (h : exec i s = .next u) : s.out <+: u.out := by
  have he : Effect s (.next u) := h ▸ exec_effect i s
  cases he with
  | emit e => exact List.prefix_append s.out [e]
  | _ => exact List.prefix_rfl

/-- A routine only appends to the report log (R232). -/
theorem exec_log_prefix (h : exec i s = .next u) : s.log <+: u.log := by
  have he : Effect s (.next u) := h ▸ exec_effect i s
  cases he with
  | reportThenWriteReg | report => exact List.prefix_append s.log _
  | _ => exact List.prefix_rfl

end Routines

end Sys2Proof.Machine
end

section
/-! The statement on what an instruction's routine may write (46_control_loop.md R213). -/

namespace Sys2Proof.Machine

/-- Settles O42: the frames of a routine, part by part; the two stores have no destination register, so they keep every register. -/
theorem routineWritesAtMostOneLocation : Obligations.RoutineWritesAtMostOneLocation := by
  intro i s t h
  refine ⟨fun r => exec_reg_of_ne_destReg h, ?memory, exec_jt_of_takesJump h, exec_pc_jt_of_not_takesJump h, exec_iw h,
    exec_stop_out_of_ne_ecall h, exec_out_prefix h, exec_log_prefix h⟩
  split
  case h_1 => exact ⟨fun r => exec_reg_of_ne_destReg h nofun, exec_sw_mem h⟩
  case h_2 => exact ⟨fun r => exec_reg_of_ne_destReg h nofun, exec_sb_mem h⟩
  case h_3 hsw hsb => exact exec_sameMem_of_ne_store h hsw hsb

end Sys2Proof.Machine
end

section
/-! SUPPORT. What an admitted launch is, the bytes of its code image, and the fetch of a Running state with an aligned pc
(46_control_loop.md R210; 70_reset_and_hazards.md R254 to R256). -/

namespace Sys2Proof.Machine

theorem launch_eq_some_iff (code data : List Byte) (s : State) :
    State.launch code data = some s ↔
      launchAdmitted code data = true ∧ State.reset.setMem (launchMemory code data) = s := by
  rw [State.launch, Option.ite_none_right_eq_some, Option.some.injEq]

/-- Below the data boundary the launch memory holds the code image: the data image, stored second, starts at the boundary (R255). -/
theorem get_launchMemory_code {code : List Byte} {k : Nat} (data : List Byte) (hk : k < code.length) (hb : k < 8192) :
    (launchMemory code data).get k = code.getD k 0#8 := by
  have hcode : uint params.codeBase = 0 := rfl
  have hdata : uint params.dataBoundary = 8192 := rfl
  rw [launchMemory, Memory.get_setBytes, hdata, if_neg (by omega), Memory.get_setBytes, hcode, if_pos (by omega), Nat.sub_zero]

/-- The first word of the launch memory is the code image's first four bytes, lowest address lowest (R40, R255). -/
theorem wordAt_zero_launchMemory (b0 b1 b2 b3 : Byte) (rest data : List Byte) :
    (launchMemory (b0 :: b1 :: b2 :: b3 :: rest) data).wordAt 0 = b3 ++ b2 ++ b1 ++ b0 := by
  simp [Memory.wordAt, get_launchMemory_code]

theorem fetch_of_running_of_aligned {s : State} (hr : s.running = true) (ha : aligned4 s.pc = true) :
    fetch s = .ok (s.setIw s.fetchedWord) := by
  obtain ⟨hm, -⟩ | ⟨-, e⟩ := fetch_of_running hr
  · simp [ha] at hm
  · exact e

/-- At reset pc is 0, so fetch reads word 0 of whatever memory the launch placed (R210, R250, R251). -/
theorem fetch_reset_setMem (m : Memory) : fetch (State.reset.setMem m) = .ok ((State.reset.setMem m).setIw (m.wordAt 0)) := by
  have hr : (State.reset.setMem m).running = true := rfl
  have ha : aligned4 (State.reset.setMem m).pc = true := rfl
  have hi : wordIndex (State.reset.setMem m).pc = 0 := wordIndex_eq 0#32
  rw [fetch_of_running_of_aligned hr ha, State.fetchedWord, hi, State.setMem_mem]

end Sys2Proof.Machine
end

section
/-! The statement on the first fetch of an admitted launch (70_reset_and_hazards.md R251). -/

namespace Sys2Proof.Machine

/-- Settles O51: a launch is the reset state over the launch memory, whose word 0 is the code image's first word. -/
theorem firstFetchReadsCodeImage : Obligations.FirstFetchReadsCodeImage := by
  intro code data s hs
  obtain ⟨-, rfl⟩ := (launch_eq_some_iff code data s).mp hs
  refine ⟨rfl, rfl, rfl, fun b0 b1 b2 b3 rest hcode => ?_⟩
  rw [hcode, fetch_reset_setMem, wordAt_zero_launchMemory]

end Sys2Proof.Machine
end

section
/-! SUPPORT. The operand fields and the immediates of an encoded word, format by format, and the encoder's round trip
(30_encoding.md R61 to R70). -/

namespace Sys2Proof

/-! ## Register fields -/

@[simp] theorem regField_regBits (r : RegIx) : regField (regBits r) = r := rfl

@[simp] theorem regBits_regField (f : BitVec 5) : regBits (regField f) = f := rfl

/-- A 5-bit field that holds a register's bits names that register (R70). -/
theorem regField_eq_of_bits {w : Word} {lo : Nat} {r : RegIx} (h : ∀ i < 5, w.getLsbD (lo + i) = (regBits r).getLsbD i) :
    regField (bitField w lo 5) = r := by
  have hbits : bitField w lo 5 = regBits r := by
    apply BitVec.eq_of_getLsbD_eq
    intro i hi
    simp [hi, h i hi]
  rw [hbits, regField_regBits]

@[simp] theorem operands_encodeR (op : BitVec 7) (f3 : BitVec 3) (f7 : BitVec 7) (rd rs1 rs2 : RegIx) :
    rdOf (encodeR op f3 f7 rd rs1 rs2) = rd ∧ rs1Of (encodeR op f3 f7 rd rs1 rs2) = rs1 ∧
      rs2Of (encodeR op f3 f7 rd rs1 rs2) = rs2 := by
  refine ⟨regField_eq_of_bits fun i hi => ?_, regField_eq_of_bits fun i hi => ?_, regField_eq_of_bits fun i hi => ?_⟩
  all_goals
    simp only [encodeR, BitVec.getLsbD_append]
    interval_cases i <;> simp

@[simp] theorem operands_encodeI (op : BitVec 7) (f3 : BitVec 3) (rd rs1 : RegIx) (imm : Word) :
    rdOf (encodeI op f3 rd rs1 imm) = rd ∧ rs1Of (encodeI op f3 rd rs1 imm) = rs1 := by
  refine ⟨regField_eq_of_bits fun i hi => ?_, regField_eq_of_bits fun i hi => ?_⟩
  all_goals
    simp only [encodeI, BitVec.getLsbD_append]
    interval_cases i <;> simp

@[simp] theorem operands_encodeShift (f3 : BitVec 3) (f7 : BitVec 7) (rd rs1 : RegIx) (shamt : BitVec 5) :
    rdOf (encodeShift f3 f7 rd rs1 shamt) = rd ∧ rs1Of (encodeShift f3 f7 rd rs1 shamt) = rs1 := by
  refine ⟨regField_eq_of_bits fun i hi => ?_, regField_eq_of_bits fun i hi => ?_⟩
  all_goals
    simp only [encodeShift, BitVec.getLsbD_append]
    interval_cases i <;> simp

@[simp] theorem operands_encodeS (f3 : BitVec 3) (rs1 rs2 : RegIx) (imm : Word) :
    rs1Of (encodeS f3 rs1 rs2 imm) = rs1 ∧ rs2Of (encodeS f3 rs1 rs2 imm) = rs2 := by
  refine ⟨regField_eq_of_bits fun i hi => ?_, regField_eq_of_bits fun i hi => ?_⟩
  all_goals
    simp only [encodeS, BitVec.getLsbD_append]
    interval_cases i <;> simp

@[simp] theorem operands_encodeB (f3 : BitVec 3) (rs1 rs2 : RegIx) (imm : Word) :
    rs1Of (encodeB f3 rs1 rs2 imm) = rs1 ∧ rs2Of (encodeB f3 rs1 rs2 imm) = rs2 := by
  refine ⟨regField_eq_of_bits fun i hi => ?_, regField_eq_of_bits fun i hi => ?_⟩
  all_goals
    simp only [encodeB, BitVec.getLsbD_append]
    interval_cases i <;> simp

@[simp] theorem rdOf_encodeU (op : BitVec 7) (rd : RegIx) (imm : Word) : rdOf (encodeU op rd imm) = rd := by
  refine regField_eq_of_bits fun i hi => ?_
  simp only [encodeU, BitVec.getLsbD_append]
  interval_cases i <;> simp

@[simp] theorem rdOf_encodeJ (rd : RegIx) (imm : Word) : rdOf (encodeJ rd imm) = rd := by
  refine regField_eq_of_bits fun i hi => ?_
  simp only [encodeJ, BitVec.getLsbD_append]
  interval_cases i <;> simp

@[simp] theorem shamtOf_encodeShift (f3 : BitVec 3) (f7 : BitVec 7) (rd rs1 : RegIx) (shamt : BitVec 5) :
    shamtOf (encodeShift f3 f7 rd rs1 shamt) = shamt := by
  apply BitVec.eq_of_getLsbD_eq
  intro i hi
  simp only [shamtOf, encodeShift, bitField_getLsbD, BitVec.getLsbD_append]
  interval_cases i <;> simp

/-! ## Immediates: the decoder gives back every value the format can hold -/

theorem immIOf_encodeI (op : BitVec 7) (f3 : BitVec 3) (rd rs1 : RegIx) {imm : Word} (h : fitsSigned12 imm = true) :
    immIOf (encodeI op f3 rd rs1 imm) = imm := by
  have hfield : bitField (encodeI op f3 rd rs1 imm) 20 12 = imm.extractLsb' 0 12 := by
    apply BitVec.eq_of_getLsbD_eq
    intro i hi
    simp only [encodeI, bitField_getLsbD, BitVec.getLsbD_append]
    interval_cases i <;> simp
  rw [immIOf_eq_signExtend, hfield]
  exact beq_iff_eq.mp h

theorem immSOf_encodeS (f3 : BitVec 3) (rs1 rs2 : RegIx) {imm : Word} (h : fitsSigned12 imm = true) :
    immSOf (encodeS f3 rs1 rs2 imm) = imm := by
  rw [immSOf_eq_signExtend]
  refine Eq.trans (congrArg _ ?_) (beq_iff_eq.mp h)
  apply BitVec.eq_of_getLsbD_eq
  intro i hi
  simp only [encodeS, bitField_getLsbD, BitVec.getLsbD_append]
  interval_cases i <;> simp

theorem immBOf_encodeB (f3 : BitVec 3) (rs1 rs2 : RegIx) {imm : Word} (h : fitsBranch imm = true) :
    immBOfWith params (encodeB f3 rs1 rs2 imm) = imm := by
  obtain ⟨hext, heven⟩ : (imm.extractLsb' 0 13).signExtend 32 = imm ∧ imm[0] = false := by
    simpa [fitsBranch, fitsBranchWith, params] using h
  rw [immBOf_eq_signExtend]
  refine Eq.trans (congrArg _ ?_) hext
  apply BitVec.eq_of_getLsbD_eq
  intro i hi
  simp only [encodeB, bitField_getLsbD, BitVec.getLsbD_append]
  interval_cases i <;> simp [heven]

theorem immUOf_encodeU (op : BitVec 7) (rd : RegIx) {imm : Word} (h : fitsUpper imm = true) :
    immUOf (encodeU op rd imm) = imm := by
  have hfield : bitField (encodeU op rd imm) 12 20 = imm.extractLsb' 0 20 := by
    apply BitVec.eq_of_getLsbD_eq
    intro i hi
    simp only [encodeU, bitField_getLsbD, BitVec.getLsbD_append]
    interval_cases i <;> simp
  have hlt : imm.toNat < 2 ^ 20 := of_decide_eq_true h
  rw [immUOf, ushiftRight_eq_zeroExtend_bitField _ (n := 20) rfl, hfield]
  apply BitVec.eq_of_toNat_eq
  simp [BitVec.extractLsb'_toNat]
  omega

theorem immJOf_encodeJ (rd : RegIx) {imm : Word} (h : fitsJump imm = true) : immJOf (encodeJ rd imm) = imm := by
  obtain ⟨hext, heven⟩ : (imm.extractLsb' 0 21).signExtend 32 = imm ∧ imm[0] = false := by
    simpa [fitsJump] using h
  rw [immJOf_eq_signExtend]
  refine Eq.trans (congrArg _ ?_) hext
  apply BitVec.eq_of_getLsbD_eq
  intro i hi
  simp only [encodeJ, bitField_getLsbD, BitVec.getLsbD_append]
  interval_cases i <;> simp [heven]

/-! ## Every immediate the decoder gives is one its format can hold -/

theorem extractLsb'_signExtend {n : Nat} (x : BitVec n) (hn : n ≤ 32 := by decide) : (x.signExtend 32).extractLsb' 0 n = x := by
  apply BitVec.eq_of_getLsbD_eq
  intro i hi
  rw [BitVec.getLsbD_extractLsb', BitVec.getLsbD_signExtend]
  simp [hi, show i < 32 by omega]

theorem fitsSigned12_signExtend (x : BitVec 12) : fitsSigned12 (x.signExtend 32) = true := by
  rw [fitsSigned12, extractLsb'_signExtend x, beq_self_eq_true]

theorem fitsUpper_ushiftRight (w : Word) : fitsUpper (w >>> 12) = true := by
  have hlt : (w >>> 12).toNat < 2 ^ 20 := by
    rw [BitVec.toNat_ushiftRight, Nat.shiftRight_eq_div_pow]
    omega
  exact decide_eq_true hlt

theorem fitsBranch_signExtend {x : BitVec 13} (h : x.getLsbD 0 = false) : fitsBranch (x.signExtend 32) = true := by
  change (((x.signExtend 32).extractLsb' 0 13).signExtend 32 == x.signExtend 32 && !(x.signExtend 32).getLsbD 0) = true
  rw [BitVec.getLsbD_eq_getElem (by decide)] at h
  simp [extractLsb'_signExtend x, BitVec.getElem_signExtend, h]

theorem fitsJump_signExtend {x : BitVec 21} (h : x.getLsbD 0 = false) : fitsJump (x.signExtend 32) = true := by
  rw [BitVec.getLsbD_eq_getElem (by decide)] at h
  simp [fitsJump, extractLsb'_signExtend x, BitVec.getElem_signExtend, h]

/-! ## The round trip -/

/-- The dispatcher names the instruction an encoded word stands for (R73 to R84). -/
theorem idOfWith_encode {i : Instr} (h : i.wf = true) : idOfWith params (encode i) = i.id := by
  cases i with
  | add => exact Laws.EncodeKey.add _ _ _ h
  | sub => exact Laws.EncodeKey.sub _ _ _ h
  | and => exact Laws.EncodeKey.and _ _ _ h
  | or => exact Laws.EncodeKey.or _ _ _ h
  | xor => exact Laws.EncodeKey.xor _ _ _ h
  | sll => exact Laws.EncodeKey.sll _ _ _ h
  | srl => exact Laws.EncodeKey.srl _ _ _ h
  | sra => exact Laws.EncodeKey.sra _ _ _ h
  | slt => exact Laws.EncodeKey.slt _ _ _ h
  | sltu => exact Laws.EncodeKey.sltu _ _ _ h
  | addi => exact Laws.EncodeKey.addi _ _ _ h
  | andi => exact Laws.EncodeKey.andi _ _ _ h
  | ori => exact Laws.EncodeKey.ori _ _ _ h
  | xori => exact Laws.EncodeKey.xori _ _ _ h
  | slli => exact Laws.EncodeKey.slli _ _ _ h
  | srli => exact Laws.EncodeKey.srli _ _ _ h
  | srai => exact Laws.EncodeKey.srai _ _ _ h
  | slti => exact Laws.EncodeKey.slti _ _ _ h
  | sltiu => exact Laws.EncodeKey.sltiu _ _ _ h
  | lui => exact Laws.EncodeKey.lui _ _ h
  | auipc => exact Laws.EncodeKey.auipc _ _ h
  | lw => exact Laws.EncodeKey.lw _ _ _ h
  | lb => exact Laws.EncodeKey.lb _ _ _ h
  | lbu => exact Laws.EncodeKey.lbu _ _ _ h
  | sw => exact Laws.EncodeKey.sw _ _ _ h
  | sb => exact Laws.EncodeKey.sb _ _ _ h
  | beq => exact Laws.EncodeKey.beq _ _ _ h
  | bne => exact Laws.EncodeKey.bne _ _ _ h
  | bge => exact Laws.EncodeKey.bge _ _ _ h
  | bgeu => exact Laws.EncodeKey.bgeu _ _ _ h
  | blt => exact Laws.EncodeKey.blt _ _ _ h
  | bltu => exact Laws.EncodeKey.bltu _ _ _ h
  | jal => exact Laws.EncodeKey.jal _ _ h
  | jalr => exact Laws.EncodeKey.jalr _ _ _ h
  | nop => exact Laws.EncodeKey.nop h
  | undefined w => exact Laws.EncodeKey.undefined w h
  | ecall => exact Laws.EncodeKey.ecall h

/-- The fields of an encoded word are the instruction's own operands (R62 to R70). -/
theorem assemble_encode {i : Instr} (h : i.wf = true) :
    assemble i.id (decodeFieldsWith params (encode i)) (encode i) = i := by
  cases i with
  | add | sub | and | or | xor | sll | srl | sra | slt | sltu => simp [assemble, Instr.id, decodeFieldsWith, encode]
  | slli | srli | srai => simp [assemble, Instr.id, decodeFieldsWith, encode]
  | addi | andi | ori | xori | slti | sltiu | lw | lb | lbu | jalr =>
    simp [assemble, Instr.id, decodeFieldsWith, encode, immIOf_encodeI _ _ _ _ h]
  | lui | auipc => simp [assemble, Instr.id, decodeFieldsWith, encode, immUOf_encodeU _ _ h]
  | sw | sb => simp [assemble, Instr.id, decodeFieldsWith, encode, immSOf_encodeS _ _ _ h]
  | beq | bne | bge | bgeu | blt | bltu => simp [assemble, Instr.id, decodeFieldsWith, encode, immBOf_encodeB _ _ _ h]
  | jal => simp [assemble, Instr.id, decodeFieldsWith, encode, immJOf_encodeJ _ h]
  | nop | undefined | ecall => rfl

end Sys2Proof
end

section
/-! The statements that decode and encode agree and that the fields make up the word (30_encoding.md R61 to R84). -/

namespace Sys2Proof

/-- Settles O11: the dispatcher names the encoded instruction, and the fields it uses hold the instruction's operands. -/
theorem decodeOfEncode : Obligations.DecodeOfEncode := by
  intro i hi
  rw [decode, decodeWith, idOfWith_encode hi]
  exact assemble_encode hi

/-- Settles O1: the seven fields, highest first, read bit by bit. -/
theorem fieldsReassembleWord : Obligations.FieldsReassembleWord := by
  intro w
  refine ⟨?_, rfl⟩
  apply BitVec.eq_of_getLsbD_eq
  intro i hi
  simp only [funct7Of, rs2Of, rs1Of, funct3Of, rdOf, opcodeOf, regBits_regField, BitVec.getLsbD_append, bitField_getLsbD]
  interval_cases i <;> simp

end Sys2Proof
end

section
/-! SUPPORT. The dispatcher by opcode group, which words it leaves undefined, and the opcode of every other word (30_encoding.md R72 to
R84). -/

namespace Sys2Proof

/-- The branch immediate's alternative keeps word bit 31 as bit 11 (R66): the S immediate with bit 0 cleared. -/
theorem immBOf_bit31_eq_signExtend (w : Word) :
    immBOfWith { params with branchBit11 := .bit31 } w =
      (bitField w 31 1 ++ bitField w 25 6 ++ bitField w 8 4 ++ 0#1 : BitVec 12).signExtend 32 := by
  change insertField (immSOf w) 0 1 0#32 = _
  apply BitVec.eq_of_getLsbD_eq
  intro i hi
  rw [immSOf_eq_signExtend]
  simp only [insertField_getLsbD _ _ _ _ hi, BitVec.getLsbD_signExtend, BitVec.msb_eq_getLsbD_last, BitVec.getLsbD_append,
    bitField_getLsbD]
  interval_cases i <;> simp

/-! ## The dispatcher, group by group -/

@[simp] theorem params_strictFunct7 : params.strictFunct7 = false := rfl

section Groups
variable {c : Config} {w : Word}

theorem idOfWith_of_opRegister (h : opcodeOf w = opRegister) : idOfWith c w = registerGroupWith c (funct3Of w) (funct7Of w) := by
  rw [idOfWith, h]; rfl

theorem idOfWith_of_opImmediate (h : opcodeOf w = opImmediate) :
    idOfWith c w = immediateGroupWith c (funct3Of w) (funct7Of w) := by
  rw [idOfWith, h]; rfl

theorem idOfWith_of_opLoad (h : opcodeOf w = opLoad) : idOfWith c w = loadGroup (funct3Of w) := by
  rw [idOfWith, h]; rfl

theorem idOfWith_of_opStore (h : opcodeOf w = opStore) : idOfWith c w = storeGroup (funct3Of w) := by
  rw [idOfWith, h]; rfl

theorem idOfWith_of_opBranch (h : opcodeOf w = opBranch) : idOfWith c w = branchGroup (funct3Of w) := by
  rw [idOfWith, h]; rfl

theorem idOfWith_of_opLui (h : opcodeOf w = opLui) : idOfWith c w = .lui := by
  rw [idOfWith, h]; rfl

theorem idOfWith_of_opAuipc (h : opcodeOf w = opAuipc) : idOfWith c w = .auipc := by
  rw [idOfWith, h]; rfl

theorem idOfWith_of_opJal (h : opcodeOf w = opJal) : idOfWith c w = .jal := by
  rw [idOfWith, h]; rfl

theorem idOfWith_of_opJalr (h : opcodeOf w = opJalr) : idOfWith c w = .jalr := by
  rw [idOfWith, h]; rfl

theorem idOfWith_of_opSystem (h : opcodeOf w = opSystem) :
    idOfWith c w = if funct3Of w = 0#3 then .ecall else .undefined := by
  rw [idOfWith, h]; rfl

theorem idOfWith_of_opNoOp (h : opcodeOf w = opNoOp) :
    idOfWith c w = if funct3Of w = 0#3 ∧ funct7Of w = 0#7 then .nop else .undefined := by
  rw [idOfWith, h]; rfl

end Groups

/-- The opcodes of the eleven groups (R72). -/
def groupOpcodes : List (BitVec 7) :=
  [opRegister, opImmediate, opLoad, opStore, opBranch, opLui, opAuipc, opJal, opJalr, opSystem, opNoOp]

theorem classify_of_not_mem {op : BitVec 7} (h : op ∉ groupOpcodes) (c : Config) (f3 : BitVec 3) (f7 : BitVec 7) :
    classifyInstructionWith c op f3 f7 = .undefined := by
  simp only [groupOpcodes, List.mem_cons, List.not_mem_nil, or_false, not_or] at h
  simp [classifyInstructionWith, h]

/-- Every word is of one of the eleven opcode groups, or is undefined for its opcode alone (R72, R84). -/
theorem opcodeOf_cases (c : Config) (w : Word) : opcodeOf w ∈ groupOpcodes ∨ idOfWith c w = .undefined :=
  or_iff_not_imp_left.mpr fun h => classify_of_not_mem h c _ _

/-! ## The opcode of an InstructionId -/

/-- The opcode of the words an InstructionId is dispatched from (R72 to R83). -/
def groupOpcode : InstructionId → BitVec 7
  | .add | .sub | .sll | .slt | .sltu | .xor | .srl | .sra | .or | .and => opRegister
  | .addi | .slli | .slti | .sltiu | .xori | .srli | .srai | .ori | .andi => opImmediate
  | .lb | .lw | .lbu => opLoad
  | .sb | .sw => opStore
  | .beq | .bne | .blt | .bge | .bltu | .bgeu => opBranch
  | .lui => opLui
  | .auipc => opAuipc
  | .jal => opJal
  | .jalr => opJalr
  | .ecall => opSystem
  | .nop | .undefined => opNoOp

theorem groupOpcode_registerGroup (f3 : BitVec 3) (f7 : BitVec 7) : groupOpcode (registerGroupWith params f3 f7) = opRegister := by
  simp only [registerGroupWith, params_strictFunct7, Bool.false_eq_true, false_and, if_false]
  split_ifs <;> rfl

theorem groupOpcode_immediateGroup (f3 : BitVec 3) (f7 : BitVec 7) :
    groupOpcode (immediateGroupWith params f3 f7) = opImmediate := by
  simp only [immediateGroupWith, params_strictFunct7, Bool.false_eq_true, false_and, if_false]
  split_ifs <;> rfl

theorem groupOpcode_loadGroup (f3 : BitVec 3) : loadGroup f3 ≠ .undefined → groupOpcode (loadGroup f3) = opLoad := by
  revert f3; decide

theorem groupOpcode_storeGroup (f3 : BitVec 3) : storeGroup f3 ≠ .undefined → groupOpcode (storeGroup f3) = opStore := by
  revert f3; decide

theorem groupOpcode_branchGroup (f3 : BitVec 3) : branchGroup f3 ≠ .undefined → groupOpcode (branchGroup f3) = opBranch := by
  revert f3; decide

/-- A word that is not undefined has the opcode of its InstructionId's group (R73). -/
theorem opcodeOf_eq_groupOpcode {w : Word} (h : idOfWith params w ≠ .undefined) :
    opcodeOf w = groupOpcode (idOfWith params w) := by
  obtain hop | hid := opcodeOf_cases params w
  · simp only [groupOpcodes, List.mem_cons, List.not_mem_nil, or_false] at hop
    obtain hop | hop | hop | hop | hop | hop | hop | hop | hop | hop | hop := hop
    · rw [idOfWith_of_opRegister hop, groupOpcode_registerGroup, hop]
    · rw [idOfWith_of_opImmediate hop, groupOpcode_immediateGroup, hop]
    · rw [idOfWith_of_opLoad hop] at h ⊢
      rw [groupOpcode_loadGroup _ h, hop]
    · rw [idOfWith_of_opStore hop] at h ⊢
      rw [groupOpcode_storeGroup _ h, hop]
    · rw [idOfWith_of_opBranch hop] at h ⊢
      rw [groupOpcode_branchGroup _ h, hop]
    · rw [idOfWith_of_opLui hop, hop]; rfl
    · rw [idOfWith_of_opAuipc hop, hop]; rfl
    · rw [idOfWith_of_opJal hop, hop]; rfl
    · rw [idOfWith_of_opJalr hop, hop]; rfl
    · rw [idOfWith_of_opSystem hop] at h ⊢
      rw [if_pos (by_contra fun hn => h (if_neg hn)), hop]; rfl
    · rw [idOfWith_of_opNoOp hop] at h ⊢
      rw [if_pos (by_contra fun hn => h (if_neg hn)), hop]; rfl
  · exact absurd hid h

theorem opcodeOf_encode {i : Instr} (h : i.id ≠ .undefined) : opcodeOf (encode i) = groupOpcode i.id := by
  cases i with
  | nop | ecall => decide
  | undefined => exact absurd rfl h
  | _ => simp [encode, Instr.id, groupOpcode]

/-! ## The words left undefined -/

theorem loadGroup_eq_undefined_iff (f3 : BitVec 3) :
    loadGroup f3 = .undefined ↔ f3 ∈ [0b001#3, 0b011#3, 0b101#3, 0b110#3, 0b111#3] := by
  revert f3; decide

theorem storeGroup_eq_undefined_iff (f3 : BitVec 3) :
    storeGroup f3 = .undefined ↔ f3 ∈ [0b001#3, 0b011#3, 0b100#3, 0b101#3, 0b110#3, 0b111#3] := by
  revert f3; decide

theorem branchGroup_eq_undefined_iff (f3 : BitVec 3) : branchGroup f3 = .undefined ↔ f3 ∈ [0b010#3, 0b011#3] := by
  revert f3; decide

/-- No word of these six opcodes is undefined (R74, R75, R79, R81). -/
theorem opcodeOf_not_mem_of_undefined {w : Word} (h : idOfWith params w = .undefined) :
    opcodeOf w ∉ [opRegister, opImmediate, opLui, opAuipc, opJal, opJalr] := by
  intro hop
  simp only [List.mem_cons, List.not_mem_nil, or_false] at hop
  obtain hop | hop | hop | hop | hop | hop := hop
  · have hgroup := groupOpcode_registerGroup (funct3Of w) (funct7Of w)
    rw [← idOfWith_of_opRegister hop, h] at hgroup
    exact absurd hgroup (by decide)
  · have hgroup := groupOpcode_immediateGroup (funct3Of w) (funct7Of w)
    rw [← idOfWith_of_opImmediate hop, h] at hgroup
    exact absurd hgroup (by decide)
  · cases (idOfWith_of_opLui hop).symm.trans h
  · cases (idOfWith_of_opAuipc hop).symm.trans h
  · cases (idOfWith_of_opJal hop).symm.trans h
  · cases (idOfWith_of_opJalr hop).symm.trans h

/-- A word with no InstructionId but Undefined is one R84 lists. -/
theorem unrecognised_of_id {w : Word} (h : idOfWith params w = .undefined) : unrecognised w = true := by
  by_contra hn
  simp only [unrecognised, unrecognisedWith] at hn
  split_ifs at hn with hload hstore hbranch hsystem hnoop hregister himmediate
  · rw [idOfWith_of_opLoad hload, loadGroup_eq_undefined_iff] at h
    exact hn (decide_eq_true h)
  · rw [idOfWith_of_opStore hstore, storeGroup_eq_undefined_iff] at h
    exact hn (decide_eq_true h)
  · rw [idOfWith_of_opBranch hbranch, branchGroup_eq_undefined_iff] at h
    exact hn (decide_eq_true h)
  · rw [idOfWith_of_opSystem hsystem] at h
    have h3 : funct3Of w = 0#3 := by simpa using hn
    simp [h3] at h
  · rw [idOfWith_of_opNoOp hnoop] at h
    have hkeys : funct3Of w = 0#3 ∧ funct7Of w = 0#7 := by simpa using hn
    simp [hkeys] at h
  · exact opcodeOf_not_mem_of_undefined h (by simp [hregister])
  · exact opcodeOf_not_mem_of_undefined h (by simp [himmediate])
  · have hmem : opcodeOf w ∈ [opLui, opAuipc, opJal, opJalr] := by_contra fun hc => hn (decide_eq_true hc)
    exact opcodeOf_not_mem_of_undefined h (List.mem_cons_of_mem _ (List.mem_cons_of_mem _ hmem))

/-- The all-zero opcode's no-op has funct3 and funct7 clear (R82). -/
theorem keys_of_nop {w : Word} (h : idOfWith params w = .nop) : opcodeOf w = opNoOp ∧ funct3Of w = 0#3 ∧ funct7Of w = 0#7 := by
  have hop : opcodeOf w = opNoOp := by simpa [h, groupOpcode] using opcodeOf_eq_groupOpcode (w := w)
  rw [idOfWith_of_opNoOp hop] at h
  exact ⟨hop, by_contra fun hn => by simp [hn] at h⟩

/-- An undefined word of no group with unrecognised funct3 values has the format Undefined (R72, R82). -/
theorem formatOf_of_undefined {w : Word} (h : idOfWith params w = .undefined)
    (hop : opcodeOf w ∉ [opLoad, opSystem, opStore, opBranch]) : formatOf w = .undefined := by
  have hother := opcodeOf_not_mem_of_undefined h
  simp only [List.mem_cons, List.not_mem_nil, or_false, not_or] at hop hother
  by_cases hnoop : opcodeOf w = opNoOp
  · rw [idOfWith_of_opNoOp hnoop] at h
    have hkeys : ¬ (funct3Of w = 0#3 ∧ funct7Of w = 0#7) := fun hn => by simp [hn] at h
    rw [formatOf, hnoop]
    exact if_neg hkeys
  · simp [formatOf, classifyFormat, hop, hother, hnoop]

/-! ## STRICT_FUNCT7 -/

/-- The arithmetic words whose funct7 R81's alternative rejects. -/
def StrictRejects (w : Word) : Prop :=
  (opcodeOf w = 0b0110011#7 ∧ funct7Of w ≠ 0#7 ∧
      ¬ (funct7Of w = 0b0100000#7 ∧ (funct3Of w = 0b000#3 ∨ funct3Of w = 0b101#3))) ∨
    (opcodeOf w = 0b0010011#7 ∧
      ((funct3Of w = 0b001#3 ∧ funct7Of w ≠ 0#7) ∨ (funct3Of w = 0b101#3 ∧ funct7Of w ≠ 0#7 ∧ funct7Of w ≠ 0b0100000#7)))

theorem registerGroup_strict (f3 : BitVec 3) (f7 : BitVec 7) :
    registerGroupWith { params with strictFunct7 := true } f3 f7 =
      if f7 ≠ 0#7 ∧ ¬ (f7 = 0b0100000#7 ∧ (f3 = 0b000#3 ∨ f3 = 0b101#3)) then .undefined
      else registerGroupWith params f3 f7 := by
  by_cases h0 : f7 = 0#7
  · simp [registerGroupWith, h0]
  by_cases halt : f7 = 0b0100000#7
  · subst halt
    revert f3; decide
  · simp [registerGroupWith, funct7Alt, h0, halt]

theorem immediateGroup_strict (f3 : BitVec 3) (f7 : BitVec 7) :
    immediateGroupWith { params with strictFunct7 := true } f3 f7 =
      if (f3 = 0b001#3 ∧ f7 ≠ 0#7) ∨ (f3 = 0b101#3 ∧ f7 ≠ 0#7 ∧ f7 ≠ 0b0100000#7) then .undefined
      else immediateGroupWith params f3 f7 := by
  by_cases h0 : f7 = 0#7
  · simp [immediateGroupWith, h0]
  by_cases halt : f7 = 0b0100000#7
  · subst halt
    revert f3; decide
  · simp only [immediateGroupWith, params_strictFunct7, funct7Alt, h0, halt, ne_eq, not_false_eq_true, and_true, Bool.false_eq_true,
      if_true, if_false]
    revert f3; decide

/-- STRICT_FUNCT7 changes the InstructionId of the words it rejects alone (R81). -/
theorem idOfWith_strict (w : Word) [Decidable (StrictRejects w)] :
    idOfWith { params with strictFunct7 := true } w = if StrictRejects w then .undefined else idOfWith params w := by
  by_cases hregister : opcodeOf w = opRegister
  · rw [idOfWith_of_opRegister hregister, idOfWith_of_opRegister hregister, registerGroup_strict]
    refine if_congr ?_ rfl rfl
    simp [StrictRejects, hregister, opRegister]
  by_cases himmediate : opcodeOf w = opImmediate
  · rw [idOfWith_of_opImmediate himmediate, idOfWith_of_opImmediate himmediate, immediateGroup_strict]
    refine if_congr ?_ rfl rfl
    simp [StrictRejects, himmediate, opImmediate]
  · have hn : ¬ StrictRejects w := fun h => h.elim (fun ⟨hop, _⟩ => hregister hop) (fun ⟨hop, _⟩ => himmediate hop)
    rw [if_neg hn]
    simp [idOfWith, classifyInstructionWith, hregister, himmediate]

/-! ## The decoder by InstructionId -/

theorem decode_of_id {w : Word} {id : InstructionId} (h : idOfWith params w = id) :
    decode w = assemble id (decodeFieldsWith params w) w := by
  rw [decode, decodeWith, h]

@[simp] theorem assemble_id (id : InstructionId) (f : DecodedFields) (w : Word) : (assemble id f w).id = id := by
  cases id <;> rfl

theorem decode_id (w : Word) : (decode w).id = idOfWith params w :=
  assemble_id _ _ _

/-- Every decoded instruction is well-formed: its immediate is its format's, an undefined word is unrecognised (R69, R84). -/
theorem decode_wf (w : Word) : (decode w).wf = true := by
  have hI : fitsSigned12 (immIOf w) = true := immIOf_eq_signExtend w ▸ fitsSigned12_signExtend _
  have hS : fitsSigned12 (immSOf w) = true := immSOf_eq_signExtend w ▸ fitsSigned12_signExtend _
  have hB : fitsBranch (immBOfWith params w) = true :=
    immBOf_eq_signExtend w ▸ fitsBranch_signExtend (by rw [BitVec.getLsbD_append]; rfl)
  have hJ : fitsJump (immJOf w) = true := immJOf_eq_signExtend w ▸ fitsJump_signExtend (by rw [BitVec.getLsbD_append]; rfl)
  have hU : fitsUpper (immUOf w) = true := fitsUpper_ushiftRight w
  cases hid : idOfWith params w with
  | addi | slti | sltiu | xori | ori | andi | lb | lw | lbu | jalr => exact decode_of_id hid ▸ hI
  | sb | sw => exact decode_of_id hid ▸ hS
  | beq | bne | blt | bge | bltu | bgeu => exact decode_of_id hid ▸ hB
  | lui | auipc => exact decode_of_id hid ▸ hU
  | jal => exact decode_of_id hid ▸ hJ
  | undefined => exact decode_of_id hid ▸ unrecognised_of_id hid
  | _ => rw [decode_of_id hid]; rfl

/-! ## The opcode table by key fields -/

theorem bitField_and (v w : Word) (lo n : Nat) : bitField (v &&& w) lo n = bitField v lo n &&& bitField w lo n := by
  apply BitVec.eq_of_getLsbD_eq
  intro i hi
  simp [hi]

/-- Words with no bit outside opcode, funct3 and funct7 are equal exactly when those fields are (R61). -/
theorem eq_iff_keys {v w : Word} (hv : v &&& 0xFE00707F#32 = v) (hw : w &&& 0xFE00707F#32 = w) :
    v = w ↔ opcodeOf v = opcodeOf w ∧ funct3Of v = funct3Of w ∧ funct7Of v = funct7Of w := by
  have hkeys : ∀ x : Word, x &&& 0xFE00707F#32 = funct7Of x ++ 0#10 ++ funct3Of x ++ 0#5 ++ opcodeOf x := by
    intro x
    apply BitVec.eq_of_getLsbD_eq
    intro i hi
    simp only [funct7Of, funct3Of, opcodeOf, BitVec.getLsbD_append, bitField_getLsbD]
    interval_cases i <;> simp
  refine ⟨fun h => by simp [h], fun ⟨hop, h3, h7⟩ => ?_⟩
  rw [← hv, ← hw, hkeys v, hkeys w, hop, h3, h7]

/-- The lookup of `tableLookup`, testing each row on the three key fields alone. -/
def keyLookup : List OpcodeRow → BitVec 7 → BitVec 3 → BitVec 7 → InstructionId
  | [], _, _, _ => .undefined
  | r :: rows, op, f3, f7 =>
    if op &&& opcodeOf r.mask = opcodeOf r.value ∧ f3 &&& funct3Of r.mask = funct3Of r.value ∧
        f7 &&& funct7Of r.mask = funct7Of r.value then r.id
    else keyLookup rows op f3 f7

/-- Rows that test no bit outside the key fields find the same instruction by those fields. -/
theorem tableLookup_eq_keyLookup {rows : List OpcodeRow} (w : Word)
    (h : ∀ r ∈ rows, r.mask &&& 0xFE00707F#32 = r.mask ∧ r.value &&& 0xFE00707F#32 = r.value) :
    tableLookup rows w = keyLookup rows (opcodeOf w) (funct3Of w) (funct7Of w) := by
  induction rows with
  | nil => rfl
  | cons r rows ih =>
    obtain ⟨hm, hv⟩ := h r List.mem_cons_self
    have htest := eq_iff_keys (v := w &&& r.mask) (w := r.value) (by rw [BitVec.and_assoc, hm]) hv
    simp only [opcodeOf, funct3Of, funct7Of, bitField_and] at htest
    rw [tableLookup, keyLookup, ih fun r' hr' => h r' (List.mem_cons_of_mem r hr')]
    exact if_congr htest rfl rfl

/-- The table has no row but the undefined one for an opcode of no group. -/
theorem keyLookup_of_not_mem {op : BitVec 7} (h : op ∉ groupOpcodes) (f3 : BitVec 3) (f7 : BitVec 7) :
    keyLookup opcodeTable op f3 f7 = .undefined := by
  have hfull : op &&& 127#7 = op := BitVec.and_allOnes
  simp only [groupOpcodes, opRegister, opImmediate, opLoad, opStore, opBranch, opLui, opAuipc, opJal, opJalr, opSystem, opNoOp,
    List.mem_cons, List.not_mem_nil, or_false, not_or] at h
  simp [keyLookup, opcodeTable, registerRows, immediateRows, loadStoreRows, controlRows, systemRows, opcodeOf, bitField, hfull, h]

/-- The table tells apart no values of funct7 but 0 and the alternative pattern (R81, R82). -/
theorem keyLookup_funct7 (op : BitVec 7) (f3 : BitVec 3) {f7 : BitVec 7} (h0 : f7 ≠ 0#7) (halt : f7 ≠ 0b0100000#7) :
    keyLookup opcodeTable op f3 f7 = keyLookup opcodeTable op f3 1#7 := by
  have hfull : f7 &&& 127#7 = f7 := BitVec.and_allOnes
  simp [keyLookup, opcodeTable, registerRows, immediateRows, loadStoreRows, controlRows, systemRows, funct7Of, bitField, hfull, h0,
    halt]

/-- Nor does the dispatcher. -/
theorem classify_funct7 (op : BitVec 7) (f3 : BitVec 3) {f7 : BitVec 7} (h0 : f7 ≠ 0#7) (halt : f7 ≠ 0b0100000#7) :
    classifyInstructionWith params op f3 f7 = classifyInstructionWith params op f3 1#7 := by
  simp [classifyInstructionWith, registerGroupWith, immediateGroupWith, funct7Alt, h0, halt]

/-- On the key fields the table and the dispatcher agree: what is left to compare is each group's funct3 values with three of funct7. -/
theorem keyLookup_opcodeTable (op : BitVec 7) (f3 : BitVec 3) (f7 : BitVec 7) :
    keyLookup opcodeTable op f3 f7 = classifyInstructionWith params op f3 f7 := by
  by_cases hop : op ∈ groupOpcodes
  · have hfinite : ∀ f7 ∈ [0#7, 0b0100000#7, 1#7], ∀ f3,
        keyLookup opcodeTable op f3 f7 = classifyInstructionWith params op f3 f7 := by
      rw [groupOpcodes] at hop
      fin_cases hop <;> decide
    by_cases h0 : f7 = 0#7
    · exact hfinite f7 (by simp [h0]) f3
    by_cases halt : f7 = 0b0100000#7
    · exact hfinite f7 (by simp [halt]) f3
    · rw [keyLookup_funct7 op f3 h0 halt, classify_funct7 op f3 h0 halt]
      exact hfinite 1#7 (by simp) f3
  · rw [keyLookup_of_not_mem hop, classify_of_not_mem hop]

end Sys2Proof
end

section
/-! The statements on the branch immediate, the dispatcher, the formats and the opcode table (30_encoding.md R66, R72 to R85). -/

namespace Sys2Proof

/-- Settles O4: the S immediate with its bit 0 moved to bit 11, or left out, and bit 0 cleared. -/
theorem branchImmediateMatchesBitFields : Obligations.BranchImmediateMatchesBitFields :=
  fun w => ⟨immBOf_eq_signExtend w, immBOf_bit31_eq_signExtend w⟩

/-- Settles O5: the opcode selects the group, and the group's table its row. -/
theorem arithmeticGroupsDecode : Obligations.ArithmeticGroupsDecode := by
  refine fun w => ⟨fun hop => ?register, fun hop => ?immediate⟩
  case register =>
    have hid : idOfWith params w = registerGroupWith params (funct3Of w) (funct7Of w) := idOfWith_of_opRegister hop
    refine ⟨fun h3 h7 => ?add, fun h3 h7 => ?sub, fun h3 => ?sll, fun h3 => ?slt, fun h3 => ?sltu, fun h3 => ?xor,
      fun h3 h7 => ?srl, fun h3 h7 => ?sra, fun h3 => ?or, fun h3 => ?and⟩
    case add => exact decode_of_id (id := .add) (by simp [hid, registerGroupWith, funct7Alt, h3, h7])
    case sub => exact decode_of_id (id := .sub) (by simp [hid, registerGroupWith, funct7Alt, h3, h7])
    case sll => exact decode_of_id (id := .sll) (by simp [hid, registerGroupWith, h3])
    case slt => exact decode_of_id (id := .slt) (by simp [hid, registerGroupWith, h3])
    case sltu => exact decode_of_id (id := .sltu) (by simp [hid, registerGroupWith, h3])
    case xor => exact decode_of_id (id := .xor) (by simp [hid, registerGroupWith, h3])
    case srl => exact decode_of_id (id := .srl) (by simp [hid, registerGroupWith, funct7Alt, h3, h7])
    case sra => exact decode_of_id (id := .sra) (by simp [hid, registerGroupWith, funct7Alt, h3, h7])
    case or => exact decode_of_id (id := .or) (by simp [hid, registerGroupWith, h3])
    case and => exact decode_of_id (id := .and) (by simp [hid, registerGroupWith, h3])
  case immediate =>
    have hid : idOfWith params w = immediateGroupWith params (funct3Of w) (funct7Of w) := idOfWith_of_opImmediate hop
    refine ⟨fun h3 => ?addi, fun h3 => ?slli, fun h3 => ?slti, fun h3 => ?sltiu, fun h3 => ?xori, fun h3 h7 => ?srli,
      fun h3 h7 => ?srai, fun h3 => ?ori, fun h3 => ?andi⟩
    case addi => exact decode_of_id (id := .addi) (by simp [hid, immediateGroupWith, h3])
    case slli => exact decode_of_id (id := .slli) (by simp [hid, immediateGroupWith, h3])
    case slti => exact decode_of_id (id := .slti) (by simp [hid, immediateGroupWith, h3])
    case sltiu => exact decode_of_id (id := .sltiu) (by simp [hid, immediateGroupWith, h3])
    case xori => exact decode_of_id (id := .xori) (by simp [hid, immediateGroupWith, h3])
    case srli => exact decode_of_id (id := .srli) (by simp [hid, immediateGroupWith, funct7Alt, h3, h7])
    case srai => exact decode_of_id (id := .srai) (by simp [hid, immediateGroupWith, funct7Alt, h3, h7])
    case ori => exact decode_of_id (id := .ori) (by simp [hid, immediateGroupWith, h3])
    case andi => exact decode_of_id (id := .andi) (by simp [hid, immediateGroupWith, h3])

/-- Settles O6: the opcode selects the group, funct3 its row, and every funct3 without a row is one R84 lists. -/
theorem loadStoreBranchGroupsDecode : Obligations.LoadStoreBranchGroupsDecode := by
  refine fun w => ⟨fun hop => ?load, fun hop => ?store, fun hop => ?branch⟩
  case load =>
    have hid {f3 : BitVec 3} (h3 : funct3Of w = f3) : idOfWith params w = loadGroup f3 := h3 ▸ idOfWith_of_opLoad hop
    exact ⟨fun h3 => decode_of_id (hid h3), fun h3 => decode_of_id (hid h3), fun h3 => decode_of_id (hid h3),
      fun h3 => decode_of_id ((hid rfl).trans ((loadGroup_eq_undefined_iff _).mpr h3))⟩
  case store =>
    have hid {f3 : BitVec 3} (h3 : funct3Of w = f3) : idOfWith params w = storeGroup f3 := h3 ▸ idOfWith_of_opStore hop
    exact ⟨fun h3 => decode_of_id (hid h3), fun h3 => decode_of_id (hid h3),
      fun h3 => decode_of_id ((hid rfl).trans ((storeGroup_eq_undefined_iff _).mpr h3))⟩
  case branch =>
    have hid {f3 : BitVec 3} (h3 : funct3Of w = f3) : idOfWith params w = branchGroup f3 := h3 ▸ idOfWith_of_opBranch hop
    exact ⟨fun h3 => decode_of_id (hid h3), fun h3 => decode_of_id (hid h3), fun h3 => decode_of_id (hid h3),
      fun h3 => decode_of_id (hid h3), fun h3 => decode_of_id (hid h3), fun h3 => decode_of_id (hid h3),
      fun h3 => decode_of_id ((hid rfl).trans ((branchGroup_eq_undefined_iff _).mpr h3))⟩

/-- Settles O7: these opcodes fix the InstructionId, but for the fields R82 and R83 name. -/
theorem singleMemberSystemNoOpDecode : Obligations.SingleMemberSystemNoOpDecode := by
  refine fun w => ⟨fun hop => ?lui, fun hop => ?auipc, fun hop => ?jal, fun hop => ?jalr, fun hop => ?system, fun hop => ?noop⟩
  case lui => exact decode_of_id (idOfWith_of_opLui hop)
  case auipc => exact decode_of_id (idOfWith_of_opAuipc hop)
  case jal => exact decode_of_id (idOfWith_of_opJal hop)
  case jalr => exact decode_of_id (idOfWith_of_opJalr hop)
  case system =>
    have hid := idOfWith_of_opSystem (c := params) hop
    exact ⟨fun h3 => decode_of_id (hid.trans (if_pos h3)), fun h3 => decode_of_id (hid.trans (if_neg h3))⟩
  case noop =>
    have hid := idOfWith_of_opNoOp (c := params) hop
    refine ⟨fun h3 h7 => decode_of_id (hid.trans (if_pos ⟨h3, h7⟩)), fun h => decode_of_id (hid.trans (if_neg fun hn => ?_))⟩
    obtain ⟨h3, h7⟩ := hn
    exact h.elim (absurd h3) (absurd h7)

/-- Settles O8: a decoded instruction has the dispatcher's InstructionId, which is Undefined exactly for the words R84 lists. -/
theorem undefinedExactlyUnrecognised : Obligations.UndefinedExactlyUnrecognised := by
  have hid {w v : Word} (h : decode w = .undefined v) : idOfWith params w = .undefined := by rw [← decode_id, h]; rfl
  refine fun w => ⟨⟨fun h => unrecognised_of_id (hid h), decode_of_unrecognised⟩, fun v h => ?_⟩
  exact Instr.undefined.inj (h.symm.trans (decode_of_id (hid h)))

/-- Settles O9: the two configurations differ in the two arithmetic groups alone, and there in the words the condition names. -/
theorem strictFunct7Rejects : Obligations.StrictFunct7Rejects := by
  intro w
  classical
  have hid := idOfWith_strict w
  by_cases h : StrictRejects w
  · rw [if_pos h] at hid
    exact (congrArg (assemble · (decodeFieldsWith params w) w) hid).trans (if_pos h).symm
  · rw [if_neg h] at hid
    exact (congrArg (assemble · (decodeFieldsWith params w) w) hid).trans (if_neg h).symm

/-- Settles O10: an InstructionId fixes the opcode, and the opcode the format; an undefined word is of a group with undefined words or of
none. -/
theorem formatMatchesInstruction : Obligations.FormatMatchesInstruction := by
  intro w
  have hformat {o : BitVec 7} (h : opcodeOf w = o) : formatOf w = classifyFormat o (funct3Of w) (funct7Of w) := by
    rw [formatOf, h]
  have hop := opcodeOf_eq_groupOpcode (w := w)
  cases hid : idOfWith params w with
  | undefined =>
    rw [decode_of_id hid]
    refine ⟨opcodeOf_not_mem_of_undefined hid, fun h => h.elim hformat hformat, hformat, hformat, fun h => ?_⟩
    exact formatOf_of_undefined hid h
  | nop =>
    obtain ⟨hnoop, h3, h7⟩ := keys_of_nop hid
    rw [decode_of_id hid]
    change formatOf w = .noOp
    rw [hformat hnoop, h3, h7]
    rfl
  | _ =>
    rw [hid] at hop
    rw [decode_of_id hid]
    exact hformat (hop nofun)

/-- Settles O12: a decoded instruction is well-formed, so O11 applies to it; its word has its group's opcode, or is the undefined word
itself. -/
theorem decodedWordsAreEncodable : Obligations.DecodedWordsAreEncodable := by
  refine fun w => ⟨decode_wf w, decodeOfEncode (decode w) (decode_wf w), ?_⟩
  by_cases hid : idOfWith params w = .undefined
  · rw [decode_of_id hid]
    rfl
  · rw [opcodeOf_encode (decode_id w ▸ hid), decode_id, opcodeOf_eq_groupOpcode hid]

/-- Settles O13: the rows test only the key fields, and on those the table and the dispatcher name the same instruction. -/
theorem dispatcherAgreesWithOpcodeTable : Obligations.DispatcherAgreesWithOpcodeTable := by
  refine fun w => ⟨?_, (decode_id w).symm⟩
  rw [decode_id, tableLookup_eq_keyLookup w (by decide), keyLookup_opcodeTable]
  rfl

/-- Settles O14: the words, decoded. -/
theorem specifiedWordsDecode : Obligations.SpecifiedWordsDecode := by
  unfold Obligations.SpecifiedWordsDecode
  decide

end Sys2Proof
end

section
/-! SUPPORT. A step commutes with putting older events and reports before the two logs (10_state.md R35; 46_control_loop.md R221). -/

namespace Sys2Proof.Machine

/-- The state with events and reports put before its output trace and its report log. -/
def State.prependLogs (o : List OutEvent) (l : List Report) (s : State) : State := { s with out := o ++ s.out, log := l ++ s.log }

/-- The answer with events and reports put before the logs of its next state. -/
def Result.prependLogs (o : List OutEvent) (l : List Report) : Result → Result
  | .next t => .next (t.prependLogs o l)
  | .fault f => .fault f
  | .refused r => .refused r

section Commute
variable (o : List OutEvent) (l : List Report) (s : State)

@[simp] theorem State.prependLogs_pc : (s.prependLogs o l).pc = s.pc := rfl
@[simp] theorem State.prependLogs_mem : (s.prependLogs o l).mem = s.mem := rfl
@[simp] theorem State.prependLogs_reg (r : RegIx) : (s.prependLogs o l).reg r = s.reg r := rfl

@[simp] theorem State.report_prependLogs (k : Condition) (x : Word) :
    (s.prependLogs o l).report k x = (s.report k x).prependLogs o l := by
  simp [State.report, State.prependLogs]

@[simp] theorem State.emit_prependLogs (e : OutEvent) : (s.prependLogs o l).emit e = (s.emit e).prependLogs o l := by
  simp [State.emit, State.prependLogs]

@[simp] theorem State.setMem_prependLogs (m : Memory) : (s.prependLogs o l).setMem m = (s.setMem m).prependLogs o l := rfl
@[simp] theorem State.jumpTo_prependLogs (t : Word) : (s.prependLogs o l).jumpTo t = (s.jumpTo t).prependLogs o l := rfl
@[simp] theorem State.setStop_prependLogs : (s.prependLogs o l).setStop = s.setStop.prependLogs o l := rfl

theorem State.endStep_prependLogs : (s.prependLogs o l).endStep = s.endStep.prependLogs o l := by
  cases h : s.jt <;> simp [State.endStep, State.updatePc, State.forceZero, State.prependLogs, State.clearJt, State.setPc, h]

/-! ## The memory primitives -/

theorem memReadWord_prependLogs (ra : Word) :
    memReadWord ra (s.prependLogs o l) = (memReadWord ra s).map fun p => (p.1, p.2.prependLogs o l) := by
  cases ha : aligned4 ra <;> cases hr : inRange ra <;> simp [memReadWord, Except.map, ha, hr]

theorem memWriteWord_prependLogs (ra v : Word) :
    memWriteWord ra v (s.prependLogs o l) = (memWriteWord ra v s).map (State.prependLogs o l) := by
  cases ha : aligned4 ra <;> cases hr : inRange ra <;> simp [memWriteWord, Except.map, ha, hr]

theorem memWriteByte_prependLogs (base off : Word) (v : Byte) :
    memWriteByteWith params base off v (s.prependLogs o l) =
      (memWriteByteWith params base off v s).map (State.prependLogs o l) := by
  cases hr : inRange (resolve base off) <;> simp [memWriteByteWith, Except.map, hr]

/-! ## The routines -/

theorem branchOp_prependLogs (cond : Word → Word → Bool) (rs1 rs2 : RegIx) (imm : Word) :
    branchOp cond rs1 rs2 imm (s.prependLogs o l) = Result.prependLogs o l (branchOp cond rs1 rs2 imm s) := by
  cases hc : cond (s.reg rs1) (s.reg rs2) <;> simp [branchOp, Result.prependLogs, hc]

theorem execLw_prependLogs (rd rs1 : RegIx) (imm : Word) :
    execLw rd rs1 imm (s.prependLogs o l) = Result.prependLogs o l (execLw rd rs1 imm s) := by
  simp only [execLw, effectiveAddr, State.prependLogs_reg, memReadWord_prependLogs]
  cases memReadWord (resolve (s.reg rs1) imm) s <;> rfl

theorem loadByte_prependLogs (extend : Byte → Word) (rd rs1 : RegIx) (imm : Word) :
    loadByte extend rd rs1 imm (s.prependLogs o l) = Result.prependLogs o l (loadByte extend rd rs1 imm s) := by
  have hread : memReadByte (effectiveAddr rs1 imm (s.prependLogs o l)) (s.prependLogs o l) =
      memReadByte (effectiveAddr rs1 imm s) s := rfl
  rw [loadByte, loadByte, hread]
  cases memReadByte (effectiveAddr rs1 imm s) s <;> rfl

theorem execSw_prependLogs (rs1 rs2 : RegIx) (imm : Word) :
    execSw rs1 rs2 imm (s.prependLogs o l) = Result.prependLogs o l (execSw rs1 rs2 imm s) := by
  simp only [execSw, effectiveAddr, State.prependLogs_reg, memWriteWord_prependLogs]
  cases memWriteWord (resolve (s.reg rs1) imm) (s.reg rs2) s <;> rfl

theorem execSb_prependLogs (rs1 rs2 : RegIx) (imm : Word) :
    execSb rs1 rs2 imm (s.prependLogs o l) = Result.prependLogs o l (execSb rs1 rs2 imm s) := by
  simp only [execSb, storeByteWith, State.prependLogs_reg, memWriteByte_prependLogs]
  cases memWriteByteWith params (s.reg rs1) imm ((s.reg rs2).extractLsb' 0 8) s <;> rfl

theorem printMemWord_prependLogs (a : Word) :
    printMemWord a (s.prependLogs o l) = Result.prependLogs o l (printMemWord a s) := by
  have hread : memReadIndexed a (s.prependLogs o l) = memReadIndexed a s := rfl
  rw [printMemWord, printMemWord, hread]
  cases memReadIndexed a s with
  | ok p => exact congrArg _ (State.emit_prependLogs o l s _)
  | error => rfl

theorem execEcall_prependLogs : execEcall (s.prependLogs o l) = Result.prependLogs o l (execEcall s) := by
  simp only [execEcall, State.prependLogs_reg, apply_ite (Result.prependLogs o l), printMemWord_prependLogs]
  rw [printInt, State.emit_prependLogs]
  rfl

/-- No routine reads the logs, and each only appends to them (R35, R221). -/
theorem exec_prependLogs (i : Instr) : exec i (s.prependLogs o l) = Result.prependLogs o l (exec i s) := by
  cases i with
  | add | sub | and | or | xor | sll | srl | sra | slt | sltu => rfl
  | addi | andi | ori | xori | slli | srli | srai | slti | sltiu => rfl
  | lui | auipc => rfl
  | lw => exact execLw_prependLogs o l s _ _ _
  | lb | lbu => exact loadByte_prependLogs o l s _ _ _ _
  | sw => exact execSw_prependLogs o l s _ _ _
  | sb => exact execSb_prependLogs o l s _ _ _
  | beq | bne | bge | bgeu | blt | bltu => exact branchOp_prependLogs o l s _ _ _ _
  | jal | jalr => rfl
  | nop => rfl
  | undefined => exact congrArg _ (State.report_prependLogs o l s _ _)
  | ecall => exact execEcall_prependLogs o l s

/-! ## The step -/

theorem fetch_prependLogs : fetch (s.prependLogs o l) = (fetch s).map (State.prependLogs o l) := by
  simp only [fetch, State.prependLogs_pc, memReadWord_prependLogs]
  cases memReadWord s.pc s <;> rfl

theorem step_prependLogs : step (s.prependLogs o l) = Result.prependLogs o l (step s) := by
  cases hr : s.running with
  | false => rw [step_of_stopped hr, step_of_stopped (s := s.prependLogs o l) hr]; rfl
  | true =>
    obtain ⟨s1, hf⟩ : ∃ s1, fetch s = .ok s1 := by
      obtain ⟨-, e⟩ | ⟨-, e⟩ := fetch_of_running hr <;> exact ⟨_, e⟩
    have hf' : fetch (s.prependLogs o l) = .ok (s1.prependLogs o l) := by rw [fetch_prependLogs, hf]; rfl
    have he : exec (decode (s1.prependLogs o l).iw) (s1.prependLogs o l).clearJt =
      Result.prependLogs o l (exec (decode s1.iw) s1.clearJt) := exec_prependLogs o l s1.clearJt _
    rw [step_of_fetch hr hf, step_of_fetch (s := s.prependLogs o l) hr hf', he]
    cases exec (decode s1.iw) s1.clearJt with
    | next u => exact congrArg _ (State.endStep_prependLogs o l u)
    | fault | refused => rfl

end Commute

end Sys2Proof.Machine
end

section
/-! The statement that the logs never steer a step (10_state.md R35; 46_control_loop.md R221). -/

namespace Sys2Proof.Machine

/-- Settles O44: both states are one state with empty logs after different older entries, and a step commutes with prepending those. -/
theorem logsNeverSteer : Obligations.LogsNeverSteer := by
  intro s s' hs'
  let base : State := { s with out := [], log := [] }
  have hs : s = base.prependLogs s.out s.log := by simp [base, State.prependLogs]
  have hs' : s' = base.prependLogs s'.out s'.log := by rw [hs']; simp [base, State.prependLogs]
  have e : step s = Result.prependLogs s.out s.log (step base) := by rw [← step_prependLogs, ← hs]
  have e' : step s' = Result.prependLogs s'.out s'.log (step base) := by rw [← step_prependLogs, ← hs']
  rw [e, e']
  cases step base with
  | next u => exact ⟨rfl, u.out, u.log, rfl, rfl, rfl, rfl⟩
  | fault | refused => rfl

end Sys2Proof.Machine
end

section
/-! SUPPORT. What every routine keeps of the invariant, and that no routine refuses (46_control_loop.md R213; 60_exceptions.md R231). -/

namespace Sys2Proof.Machine

section Routines
variable {i : Instr} {s u : State}

/-- A routine keeps memory in canonical form: its stores are inside the storage. -/
theorem exec_mem_wf (h : exec i s = .next u) (hm : s.mem.wf) : u.mem.wf := by
  have he : Effect s (.next u) := h ▸ exec_effect i s
  cases he with
  | storeWord k v hk => exact Memory.setWordAt_wf v hm hk
  | storeByte a v ha => exact Memory.set_wf v hm ha
  | _ => exact hm

/-- A report of a recorded condition leaves only recorded conditions in the log (R231). -/
theorem report_log_recorded {k : Condition} (a : Word) (hk : k.recorded = true) (hl : ∀ r ∈ s.log, r.kind.recorded = true) :
    ∀ r ∈ (s.report k a).log, r.kind.recorded = true := by
  intro r hr
  rw [State.report_log, List.mem_append, List.mem_singleton] at hr
  obtain hr | rfl := hr
  · exact hl r hr
  · exact hk

/-- A routine reports only recorded conditions (R231). -/
theorem exec_log_recorded (h : exec i s = .next u) (hl : ∀ r ∈ s.log, r.kind.recorded = true) :
    ∀ r ∈ u.log, r.kind.recorded = true := by
  have he : Effect s (.next u) := h ▸ exec_effect i s
  cases he with
  | reportThenWriteReg rd a => exact report_log_recorded a rfl hl
  | report k a hk => exact report_log_recorded a hk hl
  | _ => exact hl

theorem exec_ne_refused (i : Instr) (s : State) (r : Refusal) : exec i s ≠ .refused r := by
  intro h
  have he : Effect s (.refused r) := h ▸ exec_effect i s
  cases he

end Routines

/-- The end of a step makes the invariant of canonical memory and a recorded log (R214, R215). -/
theorem endStep_inv {u : State} (hm : u.mem.wf) (hl : ∀ r ∈ u.log, r.kind.recorded = true) : u.endStep.Inv :=
  ⟨u.endStep_mem ▸ hm, u.endStep_jt, u.endStep_cell, u.endStep_log ▸ hl⟩

/-! ## Launches -/

theorem uint_codeBase : uint params.codeBase = 0 := rfl

theorem uint_dataBoundary : uint params.dataBoundary = 8192 := rfl

theorem imageFits_iff (offset limit : Nat) (image : List Byte) :
    imageFits offset limit image = true ↔ offset % 4 = 0 ∧ image.length % 4 = 0 ∧ image.length ≤ limit := by
  simp [imageFits, and_assoc]

theorem launchAdmitted_iff (code data : List Byte) :
    launchAdmitted code data = true ↔
      (code.length % 4 = 0 ∧ code.length ≤ 8192) ∧ data.length % 4 = 0 ∧ data.length ≤ 8192 := by
  rw [launchAdmitted, Bool.and_eq_true, imageFits_iff, imageFits_iff, uint_codeBase, uint_dataBoundary, memBytes_eq]
  simp

/-- An admitted launch stores its images inside the storage (R255, R256). -/
theorem launchMemory_wf {code data : List Byte} (h : launchAdmitted code data = true) : (launchMemory code data).wf := by
  obtain ⟨⟨-, hcode⟩, -, hdata⟩ := (launchAdmitted_iff code data).mp h
  refine Memory.setBytes_wf data _ (Memory.setBytes_wf code _ Memory.nil_wf ?_) ?_
  · rw [uint_codeBase, memBytes_eq]; omega
  · rw [uint_dataBoundary, memBytes_eq]; omega

/-- The bytes of a launch: the data image from the boundary, the code image from 0, 0 elsewhere (R255, R256). -/
theorem get_launchMemory (code data : List Byte) (a : Nat) :
    (launchMemory code data).get a =
      if 8192 ≤ a ∧ a < 8192 + data.length then data.getD (a - 8192) 0#8
      else if a < code.length then code.getD a 0#8 else 0#8 := by
  rw [launchMemory, Memory.get_setBytes, Memory.get_setBytes, uint_codeBase, uint_dataBoundary]
  simp only [Nat.zero_le, true_and, Nat.zero_add, Nat.sub_zero]
  rfl

end Sys2Proof.Machine
end

section
/-! The statements on the invariant, refusals, reset and launches (10_state.md R36; 30_encoding.md R85; 46_control_loop.md R214, R215;
60_exceptions.md R231; 70_reset_and_hazards.md R250 to R256). -/

namespace Sys2Proof.Machine

/-- Settles O48: a misaligned fetch reports a recorded condition, every routine keeps canonical memory and a recorded log, and the end
of the step sees to jt and the cell of x0. -/
theorem stepKeepsInvariant : Obligations.StepKeepsInvariant := by
  rintro s t ⟨hm, -, -, hl⟩ h
  obtain ⟨-, rfl⟩ | ⟨-, u, hu, rfl⟩ := step_next_fetch_cases h
  · exact endStep_inv hm (report_log_recorded s.pc rfl hl)
  · exact endStep_inv (exec_mem_wf hu hm) (exec_log_recorded hu hl)

/-- Settles O49: reset has no cells and no reports, and an admitted launch differs from it in canonical memory alone. -/
theorem resetAndLaunchMeetInvariant : Obligations.ResetAndLaunchMeetInvariant := by
  have hreset : State.reset.Inv := ⟨Memory.nil_wf, rfl, by decide, nofun⟩
  refine ⟨hreset, fun code data s hs => ?_⟩
  obtain ⟨hadm, rfl⟩ := (launch_eq_some_iff code data s).mp hs
  obtain ⟨-, hjt, hcell, hlog⟩ := hreset
  exact ⟨launchMemory_wf hadm, hjt, hcell, hlog⟩

/-- Settles O47: no routine's answer has the shape of a refusal, and a step refuses only where its routine does. -/
theorem nothingIsRefused : Obligations.NothingIsRefused := by
  refine ⟨exec_ne_refused, fun s r => ?_⟩
  cases hr : s.running with
  | false => simp [step_of_stopped hr]
  | true =>
    obtain ⟨s1, hf⟩ : ∃ s1, fetch s = .ok s1 := by
      obtain ⟨-, e⟩ | ⟨-, e⟩ := fetch_of_running hr <;> exact ⟨_, e⟩
    rw [step_of_fetch hr hf]
    cases he : exec (decode s1.iw) s1.clearJt with
    | refused r => exact absurd he (exec_ne_refused _ _ r)
    | next | fault => simp

/-- Settles O50: the reset state, field by field. -/
theorem resetState : Obligations.ResetState := by
  refine ⟨by decide, by decide, by decide, by decide, rfl, rfl, rfl, by decide, rfl, fun a => rfl, rfl, rfl⟩

/-- Settles O52: an admitted launch is the reset state over the launch memory, and admission is the four conditions on the lengths. -/
theorem launchPlacesImages : Obligations.LaunchPlacesImages := by
  refine fun code data => ⟨fun hc4 hc hd4 hd => ?admitted, fun h => ?refused⟩
  case admitted =>
    have hadm : launchAdmitted code data = true := (launchAdmitted_iff code data).mpr ⟨⟨hc4, hc⟩, hd4, hd⟩
    refine ⟨_, (launch_eq_some_iff code data _).mpr ⟨hadm, rfl⟩, rfl, fun k hk => ?_, fun k hk => ?_, fun a ha hout => ?_⟩
    · exact get_launchMemory_code data hk (by omega)
    · rw [State.setMem_mem, get_launchMemory, if_pos (by omega), Nat.add_sub_cancel_left]
    · rw [State.setMem_mem, get_launchMemory, if_neg (by omega), if_neg (by omega)]
  case refused =>
    refine if_neg fun hadm => ?_
    obtain ⟨⟨hc4, hc⟩, hd4, hd⟩ := (launchAdmitted_iff code data).mp hadm
    omega

end Sys2Proof.Machine
end

section
/-! SUPPORT. A routine that only writes a register, and the results of the arithmetic, comparisons and shifts as integers and naturals
(40_integer_register.md R100 to R111; 41_integer_immediate.md R120 to R129; 42_upper_immediate.md R140, R141). -/

namespace Sys2Proof.Machine

/-- Writing a register changes nothing else (R22). -/
theorem onlyReg_setReg (s : State) (rd : RegIx) (v : Word) : OnlyReg rd v s (s.setReg rd v) :=
  ⟨s.reg_setReg rd v, ⟨rfl, rfl, rfl, rfl⟩, fun _ => rfl, rfl, rfl⟩

theorem completesWriting_of_exec {i : Instr} {rd : RegIx} {v v' : Word} {s : State} (h : exec i s = .next (s.setReg rd v))
    (hv : v = v') : CompletesWriting i rd v' s :=
  hv ▸ ⟨_, h, onlyReg_setReg s rd v⟩

/-! ## Results as integers and naturals -/

theorem add_eq_ofNat (a b : Word) : a + b = BitVec.ofNat 32 (uint a + uint b) := by
  simp [BitVec.ofNat_add]

theorem add_eq_ofInt (a b : Word) : a + b = BitVec.ofInt 32 (sint a + sint b) := by
  simp [BitVec.ofInt_add]

theorem sub_eq_ofInt (a b : Word) : a - b = BitVec.ofInt 32 (sint a - sint b) := by
  apply BitVec.eq_of_toInt_eq
  rw [BitVec.toInt_sub, BitVec.toInt_ofInt]

/-- A truth value of the unsigned comparison, as the spec's `cond ? 1 : 0` (R111, R129). -/
theorem boolWord_ltUnsigned (a b : Word) : boolWord (ltUnsigned a b) = if uint a < uint b then 1#32 else 0#32 := by
  simp [boolWord, ltUnsigned]

/-- Shifting left multiplies by the power of two, modulo 2^32 (R107). -/
theorem shiftLeft_eq_ofNat (a : Word) (n : Nat) : a <<< n = BitVec.ofNat 32 (uint a * 2 ^ n) := by
  apply BitVec.eq_of_toNat_eq
  simp [Nat.shiftLeft_eq]

/-- Shifting right logically is the floor quotient of the unsigned value (R108). -/
theorem ushiftRight_eq_ofNat (a : Word) (n : Nat) : a >>> n = BitVec.ofNat 32 (uint a / 2 ^ n) := by
  rw [← Nat.shiftRight_eq_div_pow, ← BitVec.toNat_ushiftRight, BitVec.ofNat_toNat, BitVec.setWidth_eq]

/-- Shifting right arithmetically is the floor quotient of the signed value (R109). -/
theorem sshiftRight_eq_ofInt (a : Word) (n : Nat) : a.sshiftRight n = BitVec.ofInt 32 (sint a / 2 ^ n) := by
  have hdiv : (a.sshiftRight n).toInt = sint a / 2 ^ n := by
    simp [BitVec.toInt_sshiftRight, Int.shiftRight_eq_div_pow]
  rw [← hdiv, BitVec.ofInt_toInt]

/-- A register shift's amount is x[rs2] modulo 32 (R106). -/
theorem extractLsb'_five_toNat (b : Word) : (b.extractLsb' 0 5).toNat = uint b % 32 := by
  simp [BitVec.extractLsb'_toNat]

end Sys2Proof.Machine
end

section
/-! The statements on the results of the register, immediate and upper-immediate operations, and on nop and undefined
(40_integer_register.md R101 to R111; 41_integer_immediate.md R121 to R129; 42_upper_immediate.md R140, R141; 45_noop_system.md R190,
R191). -/

namespace Sys2Proof.Machine

/-- Settles O15: each routine is R100's template, and its operation is the one the rule names. -/
theorem registerArithmeticResults : Obligations.RegisterArithmeticResults := by
  refine fun s rd rs1 rs2 => ⟨?add, ?sub, ?and, ?or, ?xor, ?slt, ?sltu⟩
  case add => exact completesWriting_of_exec rfl (add_eq_ofNat _ _)
  case sub => exact completesWriting_of_exec rfl (sub_eq_ofInt _ _)
  case and => exact completesWriting_of_exec rfl rfl
  case or => exact completesWriting_of_exec rfl rfl
  case xor => exact completesWriting_of_exec rfl rfl
  case slt => exact completesWriting_of_exec rfl (boolWord_ltSigned _ _)
  case sltu => exact completesWriting_of_exec rfl (boolWord_ltUnsigned _ _)

/-- Settles O16: the machine's shift amount is the low five bits of x[rs2], so no shift faults. -/
theorem registerShiftResults : Obligations.RegisterShiftResults := by
  intro s rd rs1 rs2
  rw [← extractLsb'_five_toNat]
  refine ⟨?sll, ?srl, ?sra⟩
  case sll => exact completesWriting_of_exec rfl (shiftLeft_eq_ofNat _ _)
  case srl => exact completesWriting_of_exec rfl (ushiftRight_eq_ofNat _ _)
  case sra => exact completesWriting_of_exec rfl (sshiftRight_eq_ofInt _ _)

/-- Settles O17: each routine is R120's template, and its operation is the one the rule names. -/
theorem immediateResults : Obligations.ImmediateResults := by
  refine fun s rd rs1 imm shamt => ⟨?addi, ?andi, ?ori, ?xori, ?slli, ?srli, ?srai, ?slti, ?sltiu⟩
  case addi => exact completesWriting_of_exec rfl (add_eq_ofInt _ _)
  case andi => exact completesWriting_of_exec rfl rfl
  case ori => exact completesWriting_of_exec rfl rfl
  case xori => exact completesWriting_of_exec rfl rfl
  case slli => exact completesWriting_of_exec rfl (shiftLeft_eq_ofNat _ _)
  case srli => exact completesWriting_of_exec rfl (ushiftRight_eq_ofNat _ _)
  case srai => exact completesWriting_of_exec rfl (sshiftRight_eq_ofInt _ _)
  case slti => exact completesWriting_of_exec rfl (boolWord_ltSigned _ _)
  case sltiu => exact completesWriting_of_exec rfl (boolWord_ltUnsigned _ _)

/-- Settles O18: the upper immediate is a left shift by twelve, and auipc adds it to pc. -/
theorem upperImmediateResults : Obligations.UpperImmediateResults := by
  refine fun s rd immU => ⟨?lui, ?auipc⟩
  case lui => exact completesWriting_of_exec rfl (shiftLeft_eq_ofNat immU 12)
  case auipc =>
    refine completesWriting_of_exec rfl ?_
    rw [upperValue, shiftLeft_eq_ofNat, BitVec.ofNat_add, BitVec.ofNat_toNat, BitVec.setWidth_eq]

/-- Settles O25: nop answers the state, and undefined appends its report. -/
theorem nopAndUndefinedOutcomes : Obligations.NopAndUndefinedOutcomes :=
  fun _ _ => ⟨rfl, _, rfl, fun _ => rfl, ⟨rfl, rfl, rfl, rfl⟩, fun _ => rfl, rfl, rfl⟩

end Sys2Proof.Machine
end

section
/-! SUPPORT. The memory routines by arithmetic on the resolved address, and reads after writes (20_memory.md R42 to R47, R59;
43_load_store.md R151 to R155). -/

namespace Sys2Proof.Machine

/-! ## Words as four bytes -/

/-- An address plus a small offset does not wrap. -/
theorem uint_add_ofNat {a : Word} {k : Nat} (h : uint a + k < 2 ^ 32) : uint (a + BitVec.ofNat 32 k) = uint a + k := by
  simp only [uint, BitVec.toNat_add, BitVec.toNat_ofNat] at *
  omega

/-- The word at an aligned address is its four bytes, lowest address lowest (R40, R45). -/
theorem Memory.wordAt_of_aligned (m : Memory) {a : Nat} (h : a % 4 = 0) :
    m.wordAt (a / 4) = m.get (a + 3) ++ m.get (a + 2) ++ m.get (a + 1) ++ m.get a := by
  rw [Memory.wordAt, show 4 * (a / 4) = a by omega]

/-- The bytes a word store writes are the word's (R46). -/
theorem Memory.get_setWordAt_of_aligned (m : Memory) (v : Word) {a k : Nat} (ha : a % 4 = 0) (hk : k < 4) :
    (m.setWordAt (a / 4) v).get (a + k) = v.extractLsb' (8 * k) 8 := by
  rw [Memory.get_setWordAt, show 4 * (a / 4) = a by omega]
  interval_cases k <;> simp

/-- A word store at an aligned address writes no byte outside its four (R46). -/
theorem sameMemOutside_setWordAt_of_aligned (s : State) (v : Word) {a : Nat} (ha : a % 4 = 0) :
    SameMemOutside a 4 s (s.setMem (s.mem.setWordAt (a / 4) v)) := by
  have h := sameMemOutside_setWordAt s (a / 4) v
  rwa [show 4 * (a / 4) = a by omega] at h

/-! ## The memory primitives, by the address as a natural -/

theorem memWriteWord_of_misaligned {ra : Word} (h : uint ra % 4 ≠ 0) (v : Word) (s : State) :
    memWriteWord ra v s = .ok (s.report .misalignedAccess ra) :=
  if_neg (mt (aligned4_iff ra).mp h)

theorem memWriteWord_of_inRange {ra : Word} (ha : uint ra % 4 = 0) (hr : uint ra < 16384) (v : Word) (s : State) :
    memWriteWord ra v s = .ok (s.setMem (s.mem.setWordAt (uint ra / 4) v)) := by
  simp [memWriteWord, (aligned4_iff ra).mpr ha, (inRange_iff ra).mpr hr, wordIndex_eq]

theorem memWriteWord_of_outOfRange {ra : Word} (ha : uint ra % 4 = 0) (hr : 16384 ≤ uint ra) (v : Word) (s : State) :
    memWriteWord ra v s = .error (.outOfRange ra) := by
  have hn : ¬ inRange ra = true := mt (inRange_iff ra).mp (Nat.not_lt.mpr hr)
  simp [memWriteWord, (aligned4_iff ra).mpr ha, hn]

/-- `MemRead(ra, 1)` in the storage reads the byte at ra (R43). -/
theorem memReadByte_of_inRange {ra : Word} (hr : uint ra < 16384) (s : State) :
    memReadByte ra s = .ok (s.mem.get (uint ra)) := by
  rw [memReadByte, byteAddr_eq]
  exact if_pos ((inRange_iff ra).mpr hr)

theorem memReadByte_of_outOfRange {ra : Word} (hr : 16384 ≤ uint ra) (s : State) :
    memReadByte ra s = .error (.outOfRange ra) :=
  if_neg (mt (inRange_iff ra).mp (Nat.not_lt.mpr hr))

/-- A byte read depends on the byte at its address alone (R43). -/
theorem memReadByte_congr {ra : Word} {s t : State} (h : t.mem.get (uint ra) = s.mem.get (uint ra)) :
    memReadByte ra t = memReadByte ra s := by
  rw [memReadByte, memReadByte, byteAddr_eq, h]

/-- A byte store under any lane selection: the range check, then one byte (R47). -/
theorem memWriteByteWith_of_inRange (c : Config) {base off : Word} (hr : uint (base + off) < 16384) (v : Byte) (s : State) :
    memWriteByteWith c base off v s = .ok (s.setMem (s.mem.set (storeByteAddrWith c base off) v)) :=
  if_pos ((inRange_iff (base + off)).mpr hr)

theorem memWriteByteWith_of_outOfRange (c : Config) {base off : Word} (hr : 16384 ≤ uint (base + off)) (v : Byte) (s : State) :
    memWriteByteWith c base off v s = .error (.outOfRange (base + off)) :=
  if_neg (mt (inRange_iff (base + off)).mp (Nat.not_lt.mpr hr))

/-! ## The routines -/

section Routines
variable {rd rs1 rs2 : RegIx} {imm : Word} {s : State}

theorem execLw_of_misaligned (h : uint (effectiveAddr rs1 imm s) % 4 ≠ 0) :
    execLw rd rs1 imm s = .next ((s.report .misalignedAccess (effectiveAddr rs1 imm s)).setReg rd 0#32) := by
  rw [execLw, memReadWord_of_misaligned h]

theorem execLw_of_inRange (ha : uint (effectiveAddr rs1 imm s) % 4 = 0) (hr : uint (effectiveAddr rs1 imm s) < 16384) :
    execLw rd rs1 imm s = .next (s.setReg rd (s.mem.wordAt (uint (effectiveAddr rs1 imm s) / 4))) := by
  rw [execLw, memReadWord_of_inRange ha hr]

theorem execLw_of_outOfRange (ha : uint (effectiveAddr rs1 imm s) % 4 = 0) (hr : 16384 ≤ uint (effectiveAddr rs1 imm s)) :
    execLw rd rs1 imm s = .fault (.outOfRange (effectiveAddr rs1 imm s)) := by
  rw [execLw, memReadWord_of_outOfRange ha hr]

theorem loadByte_of_inRange (extend : Byte → Word) (hr : uint (effectiveAddr rs1 imm s) < 16384) :
    loadByte extend rd rs1 imm s = .next (s.setReg rd (extend (s.mem.get (uint (effectiveAddr rs1 imm s))))) := by
  rw [loadByte, memReadByte_of_inRange hr]

theorem loadByte_of_outOfRange (extend : Byte → Word) (hr : 16384 ≤ uint (effectiveAddr rs1 imm s)) :
    loadByte extend rd rs1 imm s = .fault (.outOfRange (effectiveAddr rs1 imm s)) := by
  rw [loadByte, memReadByte_of_outOfRange hr]

theorem execSw_of_misaligned (h : uint (effectiveAddr rs1 imm s) % 4 ≠ 0) :
    execSw rs1 rs2 imm s = .next (s.report .misalignedAccess (effectiveAddr rs1 imm s)) := by
  rw [execSw, memWriteWord_of_misaligned h]

theorem execSw_of_inRange (ha : uint (effectiveAddr rs1 imm s) % 4 = 0) (hr : uint (effectiveAddr rs1 imm s) < 16384) :
    execSw rs1 rs2 imm s = .next (s.setMem (s.mem.setWordAt (uint (effectiveAddr rs1 imm s) / 4) (s.reg rs2))) := by
  rw [execSw, memWriteWord_of_inRange ha hr]

theorem execSw_of_outOfRange (ha : uint (effectiveAddr rs1 imm s) % 4 = 0) (hr : 16384 ≤ uint (effectiveAddr rs1 imm s)) :
    execSw rs1 rs2 imm s = .fault (.outOfRange (effectiveAddr rs1 imm s)) := by
  rw [execSw, memWriteWord_of_outOfRange ha hr]

theorem storeByteWith_of_inRange (c : Config) (hr : uint (s.reg rs1 + imm) < 16384) :
    storeByteWith c rs1 rs2 imm s =
      .next (s.setMem (s.mem.set (storeByteAddrWith c (s.reg rs1) imm) ((s.reg rs2).extractLsb' 0 8))) := by
  rw [storeByteWith, memWriteByteWith_of_inRange c hr]

theorem storeByteWith_of_outOfRange (c : Config) (hr : 16384 ≤ uint (s.reg rs1 + imm)) :
    storeByteWith c rs1 rs2 imm s = .fault (.outOfRange (s.reg rs1 + imm)) := by
  rw [storeByteWith, memWriteByteWith_of_outOfRange c hr]

/-! ## The system call -/

/-- Print integer (R197). -/
theorem execEcall_of_printInt (h : s.reg 17 = 1#32) : execEcall s = .next (s.emit (.outInt (s.reg 10))) :=
  if_pos h

/-- Print memory word (R198). -/
theorem execEcall_of_printMemWord (h : s.reg 17 = 4#32) : execEcall s = printMemWord (s.reg 10) s := by
  have hne : ¬ s.reg 17 = 1#32 := by simp [h]
  exact (if_neg hne).trans (if_pos h)

/-- Terminate (R199). -/
theorem execEcall_of_exit (h : s.reg 17 = 10#32) : execEcall s = .next s.setStop := by
  have hne1 : ¬ s.reg 17 = 1#32 := by simp [h]
  have hne4 : ¬ s.reg 17 = 4#32 := by simp [h]
  exact (if_neg hne1).trans ((if_neg hne4).trans (if_pos h))

theorem printMemWord_of_inRange {a : Word} (hr : uint a < 16384) :
    printMemWord a s = .next (s.emit (.outMemWord (uint a / 4) (s.mem.wordAt (uint a / 4)))) := by
  have hi : wordIndex a < params.memWords := wordIndex_lt ((inRange_iff a).mpr hr)
  rw [printMemWord, memReadIndexed, if_pos hi, wordIndex_eq]

theorem printMemWord_of_outOfRange {a : Word} (hr : 16384 ≤ uint a) : printMemWord a s = .fault (.outOfRange a) := by
  have hi : ¬ wordIndex a < params.memWords := by
    rw [wordIndex_eq]
    change ¬ uint a / 4 < 4096
    omega
  rw [printMemWord, memReadIndexed, if_neg hi]

end Routines

end Sys2Proof.Machine
end

section
/-! The statements on loads, stores and the system call, and on reads after writes (20_memory.md R45; 43_load_store.md R151 to R155;
45_noop_system.md R192 to R199). -/

namespace Sys2Proof.Machine

/-- Settles O19: the three cases of `MemRead(ra, 4)`, each followed by the register write. -/
theorem loadWordOutcomes : Obligations.LoadWordOutcomes := by
  intro s rd rs1 imm ra
  refine ⟨rfl, fun hm => ?misaligned, fun ha hr => ?inRange, fun ha hr => execLw_of_outOfRange ha hr⟩
  case misaligned =>
    exact ⟨_, execLw_of_misaligned hm, State.reg_setReg _ rd 0#32, ⟨rfl, rfl, rfl, rfl⟩, fun _ => rfl, rfl, rfl⟩
  case inRange =>
    exact completesWriting_of_exec (execLw_of_inRange ha hr) (s.mem.wordAt_of_aligned ha)

/-- Settles O20: both byte loads are one template, which extends the byte at the resolved address. -/
theorem loadByteOutcomes : Obligations.LoadByteOutcomes := by
  intro s rd rs1 imm ra
  refine ⟨rfl, fun hr => ⟨?lb, ?lbu⟩, fun hr => ⟨loadByte_of_outOfRange _ hr, loadByte_of_outOfRange _ hr⟩⟩
  case lb => exact completesWriting_of_exec (loadByte_of_inRange _ hr) rfl
  case lbu => exact completesWriting_of_exec (loadByte_of_inRange _ hr) (BitVec.ofNat_toNat 32 _).symm

/-- Settles O21: the three cases of `MemWrite(ra, 4, v)`; the write changes the word's four bytes. -/
theorem storeWordOutcomes : Obligations.StoreWordOutcomes := by
  intro s rs1 rs2 imm ra
  refine ⟨rfl, fun hm => ?misaligned, fun ha hr => ?inRange, fun ha hr => execSw_of_outOfRange ha hr⟩
  case misaligned =>
    exact ⟨_, execSw_of_misaligned hm, fun _ => rfl, ⟨rfl, rfl, rfl, rfl⟩, fun _ => rfl, rfl, rfl⟩
  case inRange =>
    exact ⟨_, execSw_of_inRange ha hr, fun _ => rfl, ⟨rfl, rfl, rfl, rfl⟩, ⟨rfl, rfl⟩,
      sameMemOutside_setWordAt_of_aligned s _ ha, fun k hk => s.mem.get_setWordAt_of_aligned _ ha hk⟩

/-- Settles O22: the replaced lane is the resolved address's own byte. -/
theorem storeByteOutcomes : Obligations.StoreByteOutcomes := by
  intro s rs1 rs2 imm ra
  refine ⟨storeByteAddr_eq _ _, fun hr => ?inRange, fun hr => storeByteWith_of_outOfRange params hr⟩
  case inRange =>
    exact ⟨_, storeByteWith_of_inRange params hr, fun _ => rfl, ⟨rfl, rfl, rfl, rfl⟩, ⟨rfl, rfl⟩, sameMemOutside_set s _ _,
      Memory.get_set_same s.mem _ _⟩

/-- Settles O26: the dispatch on x17, and the read of print-memory-word by the range of x10. -/
theorem ecallOutcomes : Obligations.EcallOutcomes := by
  refine fun s => ⟨fun h => ?printInt, fun h hr => ?printMemWord, fun h hr => ?outOfRange, fun h => ?exit, fun h1 h4 h10 => ?other⟩
  case printInt =>
    exact ⟨_, execEcall_of_printInt h, fun _ => rfl, ⟨rfl, rfl, rfl, rfl⟩, fun _ => rfl, rfl, rfl⟩
  case printMemWord =>
    exact ⟨_, (execEcall_of_printMemWord h).trans (printMemWord_of_inRange hr), fun _ => rfl, ⟨rfl, rfl, rfl, rfl⟩, fun _ => rfl,
      rfl, rfl⟩
  case outOfRange => exact (execEcall_of_printMemWord h).trans (printMemWord_of_outOfRange hr)
  case exit => exact ⟨_, execEcall_of_exit h, fun _ => rfl, rfl, rfl, rfl, rfl, fun _ => rfl, rfl, rfl⟩
  case other =>
    have hn : s.reg params.syscallNumReg ∉ [params.sysPrintInt, params.sysPrintMemWord, params.sysExit] := by
      simp only [List.mem_cons, List.not_mem_nil, or_false, not_or]
      exact ⟨h1, h4, h10⟩
    exact execEcall_of_unsupported hn

/-- Settles O30: the word and byte stores at their own addresses, read back by the laws of the memory. -/
theorem writeThenReadGivesBack : Obligations.WriteThenReadGivesBack := by
  refine fun s => ⟨fun ra v ha hr => ?word, fun base off b hr => ?byte⟩
  case word =>
    refine ⟨_, memWriteWord_of_inRange ha hr v s, ?_, fun k hk => ?_, fun a hout => ?_⟩
    · rw [memReadWord_of_inRange ha hr, State.setMem_mem, Memory.wordAt_setWordAt_same]
    · have hak : uint (ra + BitVec.ofNat 32 k) = uint ra + k := uint_add_ofNat (by omega)
      rw [memReadByte_of_inRange (by omega), hak, State.setMem_mem, Memory.get_setWordAt_of_aligned _ _ ha hk]
    · exact memReadByte_congr (sameMemOutside_setWordAt_of_aligned s v ha _ hout)
  case byte =>
    have haddr : storeByteAddrWith params base off = uint (base + off) := storeByteAddr_eq base off
    refine ⟨_, memWriteByteWith_of_inRange params hr b s, ?_, fun a hne => ?_⟩
    · rw [memReadByte_of_inRange hr, haddr, State.setMem_mem, Memory.get_set_same]
    · rw [haddr]
      exact memReadByte_congr (Memory.get_set_other s.mem b (mt BitVec.eq_of_toNat_eq hne))

end Sys2Proof.Machine
end

section
/-! SUPPORT. A routine that is a branch, the jumps' targets under each alternative, the lane of a byte store, and the split of a constant
into an upper and a lower immediate (44_control_transfer.md R170, R182 to R186; 20_memory.md R47; 30_encoding.md R87). -/

namespace Sys2Proof.Machine

/-- A branch writes pc and jt when its comparison holds, and nothing otherwise (R170). -/
theorem completesBranching_of_exec {i : Instr} {cmp : Word → Word → Bool} {cond : Prop} {rs1 rs2 : RegIx} {imm : Word} {s : State}
    (hi : exec i s = branchOp cmp rs1 rs2 imm s) (hcond : cmp (s.reg rs1) (s.reg rs2) = true ↔ cond) :
    CompletesBranching i cond (s.pc + imm) s := by
  obtain ⟨hc, e⟩ | ⟨hc, e⟩ := branchOp_cases cmp rs1 rs2 imm s
  · have hholds : cond := hcond.mp hc
    exact ⟨_, hi.trans e, fun _ => rfl, fun _ => rfl, ⟨rfl, rfl⟩, rfl, rfl, fun _ => ⟨rfl, rfl⟩, fun hn => absurd hholds hn⟩
  · have hfails : ¬ cond := fun h => by simp [hcond.mpr h] at hc
    exact ⟨_, hi.trans e, fun _ => rfl, fun _ => rfl, ⟨rfl, rfl⟩, rfl, rfl, fun h => absurd h hfails, fun _ => ⟨rfl, rfl⟩⟩

/-- Masking bit 0 rounds down to an even number (R183). -/
theorem uint_clearBit0 (t : Word) : uint (t &&& 0xFFFFFFFE#32) = 2 * (uint t / 2) := by
  have hshift : t &&& 0xFFFFFFFE#32 = (t >>> 1) <<< 1 := by
    apply BitVec.eq_of_getLsbD_eq
    intro i hi
    interval_cases i <;> simp
  have hlt : t.toNat < 2 ^ 32 := t.isLt
  rw [hshift, uint, BitVec.toNat_shiftLeft, BitVec.toNat_ushiftRight, Nat.shiftLeft_eq, Nat.shiftRight_eq_div_pow, uint]
  omega

/-- Under `SB_LANE_SOURCE = offset` the byte is the offset's lane in the word the resolved address names (R47). -/
theorem storeByteAddrWith_offset (base off : Word) :
    storeByteAddrWith { params with storeByteLane := .offset } base off = 4 * (uint (base + off) / 4) + uint off % 4 := by
  change 4 * wordIndex (base + off) + (off.extractLsb' 0 2).toNat = _
  rw [wordIndex_eq, lane_eq]

/-- With a base that is a multiple of 4 the offset's lane is the resolved address's (R47). -/
theorem lane_add_of_aligned {base off : Word} (h : uint base % 4 = 0) : uint (base + off) % 4 = uint off % 4 := by
  simp only [uint, BitVec.toNat_add] at *
  omega

/-! ## li and la -/

/-- The lower part has the constant's low twelve bits (R87). -/
theorem extractLsb'_splitLo (imm : Word) : (splitLo imm).extractLsb' 0 12 = imm.extractLsb' 0 12 :=
  extractLsb'_signExtend _

theorem fitsSigned12_splitLo (imm : Word) : fitsSigned12 (splitLo imm) = true :=
  fitsSigned12_signExtend _

theorem fitsUpper_splitHi (imm : Word) : fitsUpper (splitHi imm) = true :=
  fitsUpper_ushiftRight _

/-- The two parts make up the constant: what the lower part leaves is a multiple of 2^12 (R87). -/
theorem upperValue_splitHi_add_splitLo (imm : Word) : upperValue (splitHi imm) + splitLo imm = imm := by
  have hlow : (splitLo imm).toNat % 2 ^ 12 = imm.toNat % 2 ^ 12 := by
    simpa [BitVec.extractLsb'_toNat] using congrArg BitVec.toNat (extractLsb'_splitLo imm)
  have hhigh : upperValue (splitHi imm) = imm - splitLo imm := by
    have hmul : (imm - splitLo imm).toNat % 2 ^ 12 = 0 := by
      rw [BitVec.toNat_sub]
      omega
    apply BitVec.eq_of_toNat_eq
    rw [upperValue, splitHi, BitVec.toNat_shiftLeft, BitVec.toNat_ushiftRight, Nat.shiftLeft_eq, Nat.shiftRight_eq_div_pow,
      Nat.div_mul_cancel (Nat.dvd_of_mod_eq_zero hmul), Nat.mod_eq_of_lt (imm - splitLo imm).isLt]
  rw [hhigh, BitVec.sub_add_cancel]

/-- Writing a register and then adding to it leaves the sum in it, and changes nothing else. -/
theorem onlyReg_setReg_setReg_add (s : State) (rd : RegIx) (a b : Word) :
    OnlyReg rd (a + b) s ((s.setReg rd a).setReg rd ((s.setReg rd a).reg rd + b)) := by
  refine ⟨fun r => ?_, ⟨rfl, rfl, rfl, rfl⟩, fun _ => rfl, rfl, rfl⟩
  rw [State.reg_setReg, State.reg_setReg, State.reg_setReg]
  by_cases h : r = rd ∧ r ≠ 0
  · obtain ⟨rfl, h0⟩ := h
    simp [h0]
  · simp [h]

end Sys2Proof.Machine
end

section
/-! The statements on branches and jumps, and on the alternatives of shifts, jalr and byte stores, and the assembler's li and la
(44_control_transfer.md R170 to R186; 40_integer_register.md R106; 20_memory.md R47; 30_encoding.md R87). -/

namespace Sys2Proof.Machine

/-- Settles O23: each branch is R170's template over the comparison the statement names. -/
theorem branchOutcomes : Obligations.BranchOutcomes := by
  refine fun s rs1 rs2 imm => ⟨?beq, ?bne, ?bge, ?bgeu, ?blt, ?bltu⟩
  case beq => exact completesBranching_of_exec rfl beq_iff_eq
  case bne => exact completesBranching_of_exec rfl bne_iff_ne
  case bge => exact completesBranching_of_exec rfl decide_eq_true_iff
  case bgeu => exact completesBranching_of_exec rfl decide_eq_true_iff
  case blt => exact completesBranching_of_exec rfl decide_eq_true_iff
  case bltu => exact completesBranching_of_exec rfl decide_eq_true_iff

/-- Settles O24: both jumps write the link register, then pc and jt. -/
theorem jumpOutcomes : Obligations.JumpOutcomes :=
  fun s rd _ _ =>
    ⟨⟨_, rfl, s.reg_setReg rd (s.pc + 4#32), rfl, rfl, rfl, rfl, fun _ => rfl, rfl, rfl⟩,
      ⟨_, rfl, s.reg_setReg rd (s.pc + 4#32), rfl, rfl, rfl, rfl, fun _ => rfl, rfl, rfl⟩⟩

/-- Settles O57: the alternative tests the whole of x[rs2], and below 32 the low five bits are all of it. -/
theorem shiftPolicyAlternative : Obligations.ShiftPolicyAlternative := by
  refine fun s rd rs1 rs2 op => ⟨fun h => ?_, fun h => ?_⟩
  · simp [registerShiftWith, shiftAmountWith, h]
  · have hn : ¬ 32 ≤ uint (s.reg rs2) := Nat.not_le.mpr h
    have hsa : ((s.reg rs2).extractLsb' 0 5).toNat = uint (s.reg rs2) := by
      rw [extractLsb'_five_toNat, Nat.mod_eq_of_lt h]
    simp [registerShiftWith, shiftAmountWith, hn, hsa]

/-- Settles O58: all three write the same link and flag, and the target is the mask's or is computed from the linked registers. -/
theorem jalrAlternatives : Obligations.JalrAlternatives := by
  intro s rd rs1 imm
  refine ⟨_, execJalr_eq rd rs1 imm s, ⟨_, rfl, rfl, uint_clearBit0 _⟩, ⟨_, rfl, rfl, ?_⟩⟩
  have hlinked : (s.setReg rd (s.pc + 4#32)).reg rs1 = if rs1 = rd ∧ rd ≠ 0 then s.pc + 4#32 else s.reg rs1 := by
    rw [State.reg_setReg]
    exact if_congr (and_congr_right fun h => by rw [h]) rfl rfl
  change (s.setReg rd (s.pc + 4#32)).reg rs1 + imm = _
  rw [hlinked, ite_add]

/-- Settles O59: the alternative writes its own lane, which is this machine's when the base is a multiple of 4. -/
theorem storeLaneAlternative : Obligations.StoreLaneAlternative := by
  refine fun s rs1 rs2 imm => ⟨fun hr => ?_, fun hbase => ?_⟩
  · rw [← storeByteAddrWith_offset]
    exact ⟨_, storeByteWith_of_inRange _ hr, fun _ => rfl, ⟨rfl, rfl, rfl, rfl⟩, ⟨rfl, rfl⟩, Memory.get_set_same s.mem _ _,
      sameMemOutside_set s _ _⟩
  · have haddr : storeByteAddrWith { params with storeByteLane := .offset } (s.reg rs1) imm = storeByteAddr (s.reg rs1) imm := by
      rw [storeByteAddrWith_offset, storeByteAddr_eq, ← lane_add_of_aligned hbase]
      exact Nat.div_add_mod _ 4
    change storeByteWith _ rs1 rs2 imm s = storeByteWith params rs1 rs2 imm s
    rw [storeByteWith, memWriteByteWith, haddr]
    rfl

/-- Settles O60: the two parts of the split are immediates of their formats, and their values add up to the constant. -/
theorem liAndLaLoadTheirValue : Obligations.LiAndLaLoadTheirValue := by
  refine fun s rd imm => ⟨?wf, ?li, ?la⟩
  case wf =>
    cases h : fitsSigned12 imm <;> simp [Pseudo.expand, Instr.wf, fitsUpper_splitHi, fitsSigned12_splitLo, h]
  case li =>
    cases h : fitsSigned12 imm with
    | true =>
      have hadd : (0#32 + imm : Word) = imm := BitVec.zero_add imm
      refine ⟨s.setReg rd (0#32 + imm), ?_, ?_⟩
      · rw [Pseudo.expand, h]
        rfl
      · rw [hadd]
        exact onlyReg_setReg s rd imm
    | false =>
      refine ⟨_, ?_, upperValue_splitHi_add_splitLo imm ▸ onlyReg_setReg_setReg_add s rd (upperValue (splitHi imm)) (splitLo imm)⟩
      rw [Pseudo.expand, h]
      rfl
  case la =>
    have hsum : s.pc + upperValue (splitHi imm) + splitLo imm = s.pc + imm := by
      rw [BitVec.add_assoc, upperValue_splitHi_add_splitLo]
    exact ⟨_, rfl, hsum ▸ onlyReg_setReg_setReg_add s rd (s.pc + upperValue (splitHi imm)) (splitLo imm)⟩

end Sys2Proof.Machine
end

section
/-! SUPPORT. A step by what it fetched, the reports and the faults of every routine, and the bytes at an aligned address
(46_control_loop.md R210 to R218; 60_exceptions.md R231 to R236). -/

namespace Sys2Proof.Machine

/-! ## A step by what it fetched -/

/-- What a step answers once its routine has answered (R214, R215). -/
def Result.endStep : Result → Result
  | .next u => .next u.endStep
  | .fault f => .fault f
  | .refused r => .refused r

/-- A step over a fetched word (R218). -/
theorem step_of_fetches {s : State} {w : Word} (h : Fetches s w) :
    step s = Result.endStep (exec (decode w) (s.executing w)) := by
  obtain ⟨hr, ha, rfl⟩ := h
  exact step_of_fetch hr (fetch_of_running_of_aligned hr ha)

/-- A step at a misaligned pc reports it and executes the no-op (R210). -/
theorem step_of_misaligned {s : State} (hr : s.running = true) (ha : aligned4 s.pc = false) :
    step s = .next ((s.report .misalignedAccess s.pc).executing 0#32).endStep := by
  obtain ⟨-, e⟩ | ⟨ht, -⟩ := fetch_of_running hr
  · rw [step_of_fetch hr e, State.setIw_iw, decode_zero]
    rfl
  · simp [ha] at ht

/-- A Running state's word at an aligned pc is what it fetches. -/
theorem fetches_fetchedWord {s : State} (hr : s.running = true) (ha : aligned4 s.pc = true) : Fetches s s.fetchedWord :=
  ⟨hr, ha, rfl⟩

theorem aligned4_eq_false_iff (a : Word) : aligned4 a = false ↔ uint a % 4 ≠ 0 := by
  rw [← Bool.not_eq_true, aligned4_iff]

/-! ## Reports -/

section Routines
variable {i : Instr} {s u : State}

theorem reportsOf_lw (rd rs1 : RegIx) (imm : Word) (s : State) :
    reportsOf (.lw rd rs1 imm) s =
      if uint (s.reg rs1 + imm) % 4 = 0 then [] else [⟨.misalignedAccess, s.pc, s.reg rs1 + imm⟩] := rfl

theorem reportsOf_sw (rs1 rs2 : RegIx) (imm : Word) (s : State) :
    reportsOf (.sw rs1 rs2 imm) s =
      if uint (s.reg rs1 + imm) % 4 = 0 then [] else [⟨.misalignedAccess, s.pc, s.reg rs1 + imm⟩] := rfl

theorem execLw_log {rd rs1 : RegIx} {imm : Word} (h : execLw rd rs1 imm s = .next u) :
    u.log = s.log ++ reportsOf (.lw rd rs1 imm) s := by
  obtain ⟨ha, e⟩ | ⟨-, -, e⟩ | ⟨ha, -, e⟩ := execLw_cases rd rs1 imm s
  · cases e.symm.trans h
    rw [reportsOf_lw, if_neg ((aligned4_eq_false_iff _).mp ha)]
    rfl
  · cases e.symm.trans h
  · cases e.symm.trans h
    rw [reportsOf_lw, if_pos ((aligned4_iff _).mp ha), List.append_nil]
    rfl

theorem execSw_log {rs1 rs2 : RegIx} {imm : Word} (h : execSw rs1 rs2 imm s = .next u) :
    u.log = s.log ++ reportsOf (.sw rs1 rs2 imm) s := by
  obtain ⟨ha, e⟩ | ⟨-, -, e⟩ | ⟨ha, -, e⟩ := execSw_cases rs1 rs2 imm s
  · cases e.symm.trans h
    rw [reportsOf_sw, if_neg ((aligned4_eq_false_iff _).mp ha)]
    rfl
  · cases e.symm.trans h
  · cases e.symm.trans h
    rw [reportsOf_sw, if_pos ((aligned4_iff _).mp ha), List.append_nil]
    rfl

theorem loadByte_log {extend : Byte → Word} {rd rs1 : RegIx} {imm : Word} (h : loadByte extend rd rs1 imm s = .next u) :
    u.log = s.log := by
  obtain ⟨-, e⟩ | ⟨-, e⟩ := loadByte_cases extend rd rs1 imm s <;> cases e.symm.trans h
  rfl

theorem execSb_log {rs1 rs2 : RegIx} {imm : Word} (h : execSb rs1 rs2 imm s = .next u) : u.log = s.log := by
  obtain ⟨-, e⟩ | ⟨-, e⟩ := execSb_cases rs1 rs2 imm s <;> cases e.symm.trans h
  rfl

theorem branchOp_log {cond : Word → Word → Bool} {rs1 rs2 : RegIx} {imm : Word} (h : branchOp cond rs1 rs2 imm s = .next u) :
    u.log = s.log := by
  obtain ⟨-, e⟩ | ⟨-, e⟩ := branchOp_cases cond rs1 rs2 imm s <;> cases e.symm.trans h <;> rfl

theorem execEcall_log (h : execEcall s = .next u) : u.log = s.log := by
  obtain ⟨-, e⟩ | ⟨-, -, e⟩ | ⟨-, -, e⟩ | ⟨-, e⟩ | ⟨-, -, -, e⟩ := execEcall_cases s <;> cases e.symm.trans h <;> rfl

/-- A completed routine appends the table's reports and no others (R232 to R234). -/
theorem exec_log (h : exec i s = .next u) : u.log = s.log ++ reportsOf i s := by
  have hnone {l : List Report} (hl : l = s.log) : l = s.log ++ [] := by rw [hl, List.append_nil]
  cases i with
  | add | sub | and | or | xor | sll | srl | sra | slt | sltu => cases h; exact hnone rfl
  | addi | andi | ori | xori | slli | srli | srai | slti | sltiu => cases h; exact hnone rfl
  | lui | auipc | jal | jalr | nop => cases h; exact hnone rfl
  | lw => exact execLw_log h
  | sw => exact execSw_log h
  | lb | lbu => exact hnone (loadByte_log h)
  | sb => exact hnone (execSb_log h)
  | beq | bne | bge | bgeu | blt | bltu => exact hnone (branchOp_log h)
  | undefined => cases h; rfl
  | ecall => exact hnone (execEcall_log h)

theorem reportsOf_executing (i : Instr) (s : State) (w : Word) : reportsOf i (s.executing w) = reportsOf i s := by
  cases i <;> rfl

end Routines

/-! ## Faults -/

theorem accessFault_executing (i : Instr) (s : State) (w : Word) : accessFault i (s.executing w) = accessFault i s := by
  cases i <;> rfl

/-- The fault of a byte access or a print at an address (R231, row F1). -/
def outsideFault (a : Word) : Option Word := if params.memBytes ≤ uint a then some a else none

theorem outsideFault_of_inRange {a : Word} (h : inRange a = true) : outsideFault a = none :=
  if_neg (Nat.not_le.mpr ((inRange_iff a).mp h))

theorem outsideFault_of_not_inRange {a : Word} (h : inRange a = false) : outsideFault a = some a := by
  have hge : params.memBytes ≤ uint a := by
    rw [← Bool.not_eq_true, inRange_iff] at h
    exact Nat.not_lt.mp h
  exact if_pos hge

/-- The fault of a word access at an address: none where it is misaligned (R231, row F1). -/
def wordFault (a : Word) : Option Word := if uint a % 4 = 0 then outsideFault a else none

theorem wordFault_of_aligned {a : Word} (h : aligned4 a = true) : wordFault a = outsideFault a :=
  if_pos ((aligned4_iff a).mp h)

theorem wordFault_of_misaligned {a : Word} (h : aligned4 a = false) : wordFault a = none :=
  if_neg ((aligned4_eq_false_iff a).mp h)

/-- The answer is a fault exactly where an access fault is given, and then that one. -/
def FaultsAs (r : Result) (o : Option Word) : Prop := ∀ f, r = .fault f ↔ ∃ a, o = some a ∧ f = .outOfRange a

theorem faultsAs_next (u : State) : FaultsAs (.next u) none := fun f => by simp

theorem faultsAs_outOfRange (a : Word) : FaultsAs (.fault (.outOfRange a)) (some a) := fun f => by simp [eq_comm]

section Faults
variable (rd rs1 rs2 : RegIx) (imm : Word) (s : State)

theorem execLw_faultsAs : FaultsAs (execLw rd rs1 imm s) (wordFault (s.reg rs1 + imm)) := by
  obtain ⟨ha, e⟩ | ⟨ha, hr, e⟩ | ⟨ha, hr, e⟩ := execLw_cases rd rs1 imm s
  · rw [e, wordFault_of_misaligned ha]
    exact faultsAs_next _
  · rw [e, wordFault_of_aligned ha, outsideFault_of_not_inRange hr]
    exact faultsAs_outOfRange _
  · rw [e, wordFault_of_aligned ha, outsideFault_of_inRange hr]
    exact faultsAs_next _

theorem execSw_faultsAs : FaultsAs (execSw rs1 rs2 imm s) (wordFault (s.reg rs1 + imm)) := by
  obtain ⟨ha, e⟩ | ⟨ha, hr, e⟩ | ⟨ha, hr, e⟩ := execSw_cases rs1 rs2 imm s
  · rw [e, wordFault_of_misaligned ha]
    exact faultsAs_next _
  · rw [e, wordFault_of_aligned ha, outsideFault_of_not_inRange hr]
    exact faultsAs_outOfRange _
  · rw [e, wordFault_of_aligned ha, outsideFault_of_inRange hr]
    exact faultsAs_next _

theorem loadByte_faultsAs (extend : Byte → Word) :
    FaultsAs (loadByte extend rd rs1 imm s) (outsideFault (s.reg rs1 + imm)) := by
  obtain ⟨hr, e⟩ | ⟨hr, e⟩ := loadByte_cases extend rd rs1 imm s
  · rw [e, outsideFault_of_not_inRange hr]
    exact faultsAs_outOfRange _
  · rw [e, outsideFault_of_inRange hr]
    exact faultsAs_next _

theorem execSb_faultsAs : FaultsAs (execSb rs1 rs2 imm s) (outsideFault (s.reg rs1 + imm)) := by
  obtain ⟨hr, e⟩ | ⟨hr, e⟩ := execSb_cases rs1 rs2 imm s
  · rw [e, outsideFault_of_not_inRange hr]
    exact faultsAs_outOfRange _
  · rw [e, outsideFault_of_inRange hr]
    exact faultsAs_next _

theorem branchOp_faultsAs (cond : Word → Word → Bool) : FaultsAs (branchOp cond rs1 rs2 imm s) none := by
  obtain ⟨-, e⟩ | ⟨-, e⟩ := branchOp_cases cond rs1 rs2 imm s <;> rw [e] <;> exact faultsAs_next _

theorem execEcall_faultsAs : FaultsAs (execEcall s) (if s.reg 17 = 4#32 then outsideFault (s.reg 10) else none) := by
  obtain ⟨hn, e⟩ | ⟨hn, hr, e⟩ | ⟨hn, hr, e⟩ | ⟨hn, e⟩ | ⟨-, hn, -, e⟩ := execEcall_cases s
  · rw [e, if_neg (by simp [hn])]
    exact faultsAs_next _
  · rw [e, if_pos hn, outsideFault_of_not_inRange hr]
    exact faultsAs_outOfRange _
  · rw [e, if_pos hn, outsideFault_of_inRange hr]
    exact faultsAs_next _
  · rw [e, if_neg (by simp [hn])]
    exact faultsAs_next _
  · rw [e, if_neg hn]
    exact faultsAs_next _

/-- A routine faults exactly on the access outside the storage that the table gives it (R231, R236). -/
theorem exec_faultsAs (i : Instr) : FaultsAs (exec i s) (accessFault i s) := by
  cases i with
  | add | sub | and | or | xor | sll | srl | sra | slt | sltu => exact faultsAs_next _
  | addi | andi | ori | xori | slli | srli | srai | slti | sltiu => exact faultsAs_next _
  | lui | auipc | jal | jalr | nop | undefined => exact faultsAs_next _
  | lw => exact execLw_faultsAs _ _ _ s
  | sw => exact execSw_faultsAs _ _ _ s
  | lb | lbu => exact loadByte_faultsAs _ _ _ s _
  | sb => exact execSb_faultsAs _ _ _ s
  | beq | bne | bge | bgeu | blt | bltu => exact branchOp_faultsAs _ _ _ s _
  | ecall => exact execEcall_faultsAs s

end Faults

theorem Result.endStep_eq_fault_iff (r : Result) (f : Fault) : r.endStep = .fault f ↔ r = .fault f := by
  cases r <;> simp [Result.endStep]

/-- A Running state's step faults exactly where its routine's access does (R236, R238). -/
theorem step_eq_fault_iff {s : State} (hr : s.running = true) (f : Fault) :
    step s = .fault f ↔
      aligned4 s.pc = true ∧ ∃ a, accessFault (decode s.fetchedWord) s = some a ∧ f = .outOfRange a := by
  cases ha : aligned4 s.pc with
  | false => simp [step_of_misaligned hr ha]
  | true =>
    rw [step_of_fetches (fetches_fetchedWord hr ha), Result.endStep_eq_fault_iff, exec_faultsAs, accessFault_executing]
    simp

/-! ## The word at an aligned address -/

/-- Stored where the next fetch reads, a word is the word fetched (R57, R210). -/
theorem fetchedWord_setWordAt {s : State} {m : Memory} {v : Word} (hm : s.mem = m.setWordAt (wordIndex s.pc) v) :
    s.fetchedWord = v := by
  rw [State.fetchedWord, hm, Memory.wordAt_setWordAt_same]

/-- sw writes no byte outside the four at the address it computes, and none at all where that is misaligned (R154). -/
theorem exec_sw_sameMemOutside {rs1 rs2 : RegIx} {imm : Word} {s u : State} (h : exec (.sw rs1 rs2 imm) s = .next u) :
    SameMemOutside (uint (effectiveAddr rs1 imm s)) 4 s u := by
  obtain ⟨hmis, hword⟩ := exec_sw_mem h
  by_cases ha : uint (effectiveAddr rs1 imm s) % 4 = 0
  · have haddr : 4 * wordIndex (effectiveAddr rs1 imm s) = uint (effectiveAddr rs1 imm s) := by
      rw [wordIndex_eq]
      exact Nat.mul_div_cancel' (Nat.dvd_of_mod_eq_zero ha)
    rwa [haddr] at hword
  · exact fun b _ => hmis ha b

/-- Advancing by 4 keeps an address's place in its word. -/
theorem uint_add_four_mod (a : Word) : uint (a + 4#32) % 4 = uint a % 4 := by
  simp only [uint, BitVec.toNat_add, BitVec.toNat_ofNat]
  omega

end Sys2Proof.Machine
end

section
/-! The statements on whole steps: their routine, reports, faults and frame, the jump-taken flag, the boundary, and what the next fetch
reads (10_state.md R23, R26; 20_memory.md R57; 46_control_loop.md R210 to R218; 60_exceptions.md R231 to R238). -/

namespace Sys2Proof.Machine

/-- Settles O36: fetch gives the word at pc, and `endStep` has the register-zero invariant and the pc update. -/
theorem stepRunsDecodedInstruction : Obligations.StepRunsDecodedInstruction := by
  refine ⟨fun s w i hf hd => ?_, fun u => ?_⟩
  · rw [step_of_fetches hf, hd]
    rfl
  · simp [SameRegs, SameLogs]

/-- Settles O41: the routine runs with jt clear and sets it exactly when it takes its jump, and the end of the step clears it. -/
theorem jumpTakenFlagIsTransient : Obligations.JumpTakenFlagIsTransient := by
  refine ⟨State.executing_jt, fun s t i hs h => ?routine, fun s t h => ?step, fun s b => ?before⟩
  case routine =>
    have hjump := exec_jt_iff h hs
    refine ⟨hjump, fun hjt => ?_⟩
    obtain ⟨hpc, -⟩ := exec_pc_jt_of_not_takesJump h (by simp [← hjump, hjt])
    exact hpc
  case step =>
    obtain ⟨-, -, u, -, -, rfl⟩ := step_next_cases h
    exact u.endStep_jt
  case before =>
    cases hr : s.running with
    | false => rw [step_of_stopped hr, step_of_stopped (s := { s with jt := b }) hr]
    | true =>
      cases ha : aligned4 s.pc with
      | false =>
        rw [step_of_misaligned hr ha, step_of_misaligned (s := { s with jt := b }) hr ha]
        rfl
      | true =>
        rw [step_of_fetches (fetches_fetchedWord hr ha), step_of_fetches (fetches_fetchedWord (s := { s with jt := b }) hr ha)]
        rfl

/-- Settles O43: the log grows by the fetch's report or by the routine's, and the reported paths complete. -/
theorem reportsExactly : Obligations.ReportsExactly := by
  refine ⟨fun s t h => ?log, fun s w hf => ⟨fun rd rs1 imm hd hm => ?lw, fun rs1 rs2 imm hd hm => ?sw, fun hw => ?undefined⟩,
    fun s hr ha => ⟨_, step_of_misaligned hr ha, State.endStep_iw _⟩⟩
  case log =>
    obtain ⟨ha, rfl⟩ | ⟨⟨-, ha, -⟩, u, hu, rfl⟩ := step_next_fetch_cases h
    · simp [ha]
    · rw [State.endStep_log, exec_log hu, if_pos ha, reportsOf_executing, State.executing_log]
  case lw =>
    have hu : exec (decode w) (s.executing w) =
        .next (((s.executing w).report .misalignedAccess (s.reg rs1 + imm)).setReg rd 0#32) := by
      rw [hd]
      exact execLw_of_misaligned hm
    refine ⟨_, step_of_exec_next hf hu, ?_, by simp⟩
    rw [State.endStep_reg, State.reg_setReg_same, ite_self]
  case sw =>
    have hu : exec (decode w) (s.executing w) = .next ((s.executing w).report .misalignedAccess (s.reg rs1 + imm)) := by
      rw [hd]
      exact execSw_of_misaligned hm
    exact ⟨_, step_of_exec_next hf hu, by simp [SameMem], by simp⟩
  case undefined =>
    obtain ⟨t, ht, hregs, hmem, hpc, -⟩ := undefinedWordsAreReportedNoOps s w hf hw
    exact ⟨t, ht, hregs, hmem, hpc⟩

/-- Settles O45: the frames of the routine, which the end of the step keeps; a misaligned fetch executes the no-op. -/
theorem stepWritesOnlyItsDestination : Obligations.StepWritesOnlyItsDestination := by
  intro s t h
  obtain ⟨ha, rfl⟩ | ⟨⟨-, ha, -⟩, u, hu, rfl⟩ := step_next_fetch_cases h
  · exact ⟨fun r _ => by simp, fun _ => by simp [SameMem], fun hc => by simp [ha] at hc⟩
  · refine ⟨fun r hr => ?_, fun hc => by simp [ha] at hc, fun _ => ?_⟩
    · rw [State.endStep_reg, exec_reg_of_ne_destReg hu (hr ha), State.executing_reg]
    · split
      case h_1 rs1 rs2 imm hd =>
        rw [hd] at hu
        obtain ⟨hmis, -⟩ := exec_sw_mem hu
        have hword := exec_sw_sameMemOutside hu
        simp only [SameMem, SameMemOutside, State.endStep_mem] at *
        exact ⟨hmis, hword⟩
      case h_2 hd =>
        rw [hd] at hu
        simpa [SameMemOutside] using exec_sb_mem hu
      case h_3 hsw hsb => simpa [SameMem] using exec_sameMem_of_ne_store hu hsw hsb

/-- Settles O46: the table's access fault is the routine's only one, and neither the fetch nor the end of the step faults. -/
theorem stepFaultsExactly : Obligations.StepFaultsExactly :=
  fun _ f hr => step_eq_fault_iff hr f

/-- Settles O53: an aligned sw that completes stored its word at the address, and fetch reads that word. -/
theorem storedWordIsFetched : Obligations.StoredWordIsFetched := by
  intro s t u rs1 rs2 imm ha hd ht hmem hr hpc hau
  obtain ⟨hm, -⟩ | ⟨-, v, hv, rfl⟩ := step_next_fetch_cases ht
  · simp [ha] at hm
  · rw [fetch_of_running_of_aligned hr hau]
    rw [hd] at hv
    obtain ⟨hm, -⟩ | ⟨-, -, e⟩ | ⟨-, -, e⟩ := execSw_cases rs1 rs2 imm (s.executing s.fetchedWord)
    · rw [hpc] at hau
      exact absurd (hm.symm.trans hau) Bool.false_ne_true
    · cases e.symm.trans hv
    · cases e.symm.trans hv
      have hword : u.fetchedWord = s.reg rs2 := by
        refine fetchedWord_setWordAt (m := s.mem) ?_
        rw [hmem, hpc]
        simp
        rfl
      rw [hword]

/-- Settles O54: fetch reports the pc and gives the word 0, which decodes to the no-op. -/
theorem misalignedFetchIsReportedNoOp : Obligations.MisalignedFetchIsReportedNoOp := by
  intro s hr hm
  have hpc : uint (s.pc + 4#32) % 4 ≠ 0 := by rwa [uint_add_four_mod]
  refine ⟨_, step_of_misaligned hr ((aligned4_eq_false_iff s.pc).mpr hm), ?_⟩
  simpa [SameRegs, SameMem] using hpc

/-- Settles O55: the boundary is a comparison of pc, and a Running state's step never faults with stopped. -/
theorem boundaryEndsRun : Obligations.BoundaryEndsRun := by
  refine ⟨fun s h => ?above, fun s hs h => ?below, fun pc => ?eq⟩
  case above => exact step_of_stopped ((not_running_iff s).mpr (.inr (decide_eq_true h)))
  case below =>
    have hr : s.running = true := (running_iff s).mpr ⟨hs, decide_eq_false (Nat.not_le.mpr h)⟩
    refine ⟨hr, fun hstep => ?_⟩
    obtain ⟨-, a, -, hf⟩ := (step_eq_fault_iff hr _).mp hstep
    cases hf
  case eq =>
    change decide (pc = 0x2000#32) = true ↔ _
    rw [decide_eq_true_iff, ← BitVec.toNat_inj]
    rfl

/-- Settles O56: the placed word is stored as the word at pc. -/
theorem placedWordIsFetched : Obligations.PlacedWordIsFetched := by
  intro s nbits w hr ha
  have hplaced : s.withFetchWord nbits w = s.setMem (s.mem.setWordAt (wordIndex s.pc) (BitVec.ofNat 32 (w % 2 ^ nbits))) :=
    if_pos (by rw [ha, inRange_of_running hr]; rfl)
  rw [hplaced]
  refine ⟨⟨hr, ha, fetchedWord_setWordAt rfl⟩, fun _ => rfl, ⟨rfl, rfl, rfl, rfl⟩, ⟨rfl, rfl⟩, ?_⟩
  rw [wordIndex_eq]
  exact sameMemOutside_setWordAt_of_aligned s _ ((aligned4_iff s.pc).mp ha)

end Sys2Proof.Machine
end
